-- ==== Sys2Proof/Word.lean ====
section
/-!
DEFINITION. The widths of the framer (00_scope.md R6): a byte is 8 bits (`BYTE_W`, `ADDR_W`), a command is one
19-bit word (30_encoding.md R81). Every value is an unsigned bit pattern (R8, R88).
-/

namespace Sys2Proof

/-- A byte: a register value, a frame byte, a buffer cell, a register address (R6). -/
abbrev Byte := BitVec 8

/-- The word on `cmd_word` (R21, R81). -/
abbrev CmdWord := BitVec 19

/-- The three fields of a command word (R81), before it is known that `op` names a command. -/
structure CmdFields where
  op : BitVec 3
  addr : Byte
  val : Byte
  deriving DecidableEq, Repr

end Sys2Proof
end

