-- ==== Sys2Proof/Config.lean ====
section
/-!
DEFINITION. The parameters of the framer (00_scope.md R6, R7). The fixed ones are constants; the open ones are the
fields of `Params`, an argument of every step: `Machine.State` carries one `Params`, which no step changes (R208
`ParamsFixed`). The model needs no free value of its own: all that is open at run time (what the bus answers, what the
issuer presents, 20_memory.md R55) is an input on the ports.
-/

namespace Sys2Proof

/-- `READ_MARK`: OR-ed into the address byte of a read (R6, R85). -/
def Config.readMark : Byte := 0x80

/-- `WRITE_MASK`: AND-ed onto the address byte of a write (R6, R86). -/
def Config.writeMask : Byte := 0x7F

/-- `LEN_SINGLE`: the inbound length of a single-register read (R6). -/
def Config.lenSingle : Nat := 1

/-- The open parameters of R6: the three burst lengths in bytes and the width of the native error in bits. -/
structure Params where
  lenMeas : Nat
  lenCalpt : Nat
  lenCalh : Nat
  errW : Nat
  deriving DecidableEq, Repr

/-- `MAX_LEN`, the capacity of the inbound buffer: the largest of the four inbound lengths (R6, R33). -/
def Params.maxLen (p : Params) : Nat :=
  max Config.lenSingle (max p.lenMeas (max p.lenCalpt p.lenCalh))

/-- The defaults R6 shows for the three lengths (general knowledge, not the source's), and `ERR_W` = 8, the width the
test vectors of 95_test_vectors.md take. PRESUMED, log entry 5: only `State.reset` and tests use them. -/
def Params.defaults : Params :=
  { lenMeas := 8, lenCalpt := 26, lenCalh := 7, errW := 8 }

end Sys2Proof
end

