-- ==== Sys2Proof/Machine/State.lean ====
section
/-!
DEFINITION. The state of the framer (10_state.md R24 to R40), the bus log kept beside it (20_memory.md R71), the
parameters of the step (00_scope.md R6) and the inputs the issuer and the bus primitive put on the ports (R21 to R23).
An element that "holds no value" (R41) is `none`: the spec's own state, not a missing reset value (log entry 1).
-/

namespace Sys2Proof.Machine

/-- `phase`, the sequencer's state (R24): IDLE = 0b00, XFER = 0b01, RESP = 0b10; 0b11 has no meaning and no
constructor (93_implementation_defined.md U11). -/
inductive Phase where
  | idle
  | xfer
  | resp
  deriving DecidableEq, Repr

/-- What `cmd_op` can hold: ACCEPT latches only the five commands of 30_encoding.md R82 (R25, R97). -/
inductive Op where
  | rdreg
  | rdmeas
  | rdcalpt
  | rdcalh
  | wrreg
  deriving DecidableEq, Repr

/-- `rsp_status` (R31): 0 = OK, 1 = FAIL. -/
inductive Status where
  | ok
  | fail
  deriving DecidableEq, Repr

/-- The transport-level error; the framer emits one kind, BUS (60_exceptions.md R163). The native error inside, the type
`E` of 00_scope.md R6, is carried as a number, since the framer never looks inside it (R161); on a port of `ERR_W` wires
it is below `2 ^ ERR_W` (log entry 6). -/
inductive TransportError where
  | bus (native : Nat)
  deriving DecidableEq, Repr

/-- The device-level error; the framer emits one kind, TRANSPORT (60_exceptions.md R164, R167). -/
inductive DeviceError where
  | transport (inner : TransportError)
  deriving DecidableEq, Repr

/-- A request to the bus primitive and a record of the bus log: the outbound bytes and the inbound length
(20_memory.md R54, R71). -/
structure BusRequest where
  out : List Byte
  n : Nat
  deriving DecidableEq, Repr

/-- An answer of the bus primitive to a request for `n` inbound bytes: `Ok(in)`, with `in` of exactly `n` bytes, or
`Fail(e)` (20_memory.md R54). The type leaves no place for an answer of another length (93_implementation_defined.md
U16). -/
inductive BusAnswer (n : Nat) where
  | ok (bytes : List Byte) (exact : bytes.length = n)
  | fail (e : Nat)
  deriving DecidableEq, Repr

/-- The levels on the framer's input signals in one step (R21, R22, R23). `busIn` lists the levels of `bus_in` from
position 0 on; the positions past its end are at 0 (log entry 7). What the bus answers is `answerOn`. -/
structure Ports where
  cmdValid : Bool
  cmdWord : CmdWord
  rspReady : Bool
  busDone : Bool
  busFail : Bool
  busIn : List Byte
  busErr : Nat
  deriving DecidableEq, Repr

/-- The framer, its parameters, the bus log and the inputs still to come. -/
structure State where
  /-- The parameters of 00_scope.md R6; no step changes them. -/
  params : Params
  /-- R24. -/
  phase : Phase
  /-- R25. -/
  cmdOp : Option Op
  /-- R25. -/
  cmdAddr : Option Byte
  /-- R25. -/
  cmdVal : Option Byte
  /-- R26: 1 or 2. -/
  outLen : Option (BitVec 2)
  /-- R26: the address byte. -/
  outBuf0 : Option Byte
  /-- R26: the value byte of a write; a read leaves it with no value. -/
  outBuf1 : Option Byte
  /-- R27. -/
  inLen : Option Nat
  /-- R28: the `MAX_LEN` inbound cells, position 0 first. -/
  inBuf : List (Option Byte)
  /-- R31. -/
  rspStatus : Option Status
  /-- R32: the layered error. -/
  rspErr : Option DeviceError
  /-- 20_memory.md R71: the bus log, oldest record first. Not hardware. -/
  log : List BusRequest
  /-- The inputs of this step (the head) and of the steps after it; past the end every input is 0. Not hardware: the
  issuer and the oracle of 20_memory.md R55 (log entry 3). -/
  inputs : List Ports
  deriving DecidableEq, Repr

/-- Why a step can stop: for no reason. The spec names no stop of the framer: its one exception is taken (60_exceptions.md
R160, R166), and where an element that holds no value is called for the result holds none (log entry 2). So nothing raises
a fault, in any state, which is safe: there is none to hide behaviour. -/
inductive Fault where
  deriving DecidableEq, Repr

/-- Why a step can have no meaning. -/
inductive Refusal where
  /-- Raised by no arm of `exec`: every command has its meaning. It is the name under which an arm without one would be
  rejected. Safe. -/
  | notModelled (mnemonic : String)
  deriving DecidableEq, Repr

/-- The reset state of 70_reset_and_hazards.md R190 for the parameters `p`, with `env` as the inputs to come: `phase` is
IDLE, every other element holds no value, the bus log is empty. -/
def State.launch (p : Params) (env : List Ports) : State :=
  { params := p
    phase := .idle
    cmdOp := none
    cmdAddr := none
    cmdVal := none
    outLen := none
    outBuf0 := none
    outBuf1 := none
    inLen := none
    inBuf := List.replicate p.maxLen none
    rspStatus := none
    rspErr := none
    log := []
    inputs := env }

/-- The machine right after reset (R190), with the default parameters (log entry 5) and nothing on its input ports (log
entry 3). -/
def State.reset : State :=
  State.launch Params.defaults []

end Sys2Proof.Machine
end

