-- ==== Sys2Proof/Machine/Flags.lean ====
section
/-!
DEFINITION. The framer's one flag, `rsp_status` (10_state.md R31), and the bit forms of the small registers. There is no
carry, zero or sticky flag (R31, 30_encoding.md R88).
-/

namespace Sys2Proof.Machine

/-- The value COMPLETE writes to `rsp_status`: FAIL exactly when the bus answered with a failure (R31). -/
def statusOf (busFailed : Bool) : Status :=
  if busFailed then .fail else .ok

/-- `rsp_status` as its bit (R22, R31). -/
def statusBit : Status → BitVec 1
  | .ok => 0
  | .fail => 1

/-- `phase` as its two bits (R24). -/
def phaseCode : Phase → BitVec 2
  | .idle => 0b00
  | .xfer => 0b01
  | .resp => 0b10

end Sys2Proof.Machine
end

