-- ==== Sys2Proof/Syntax.lean ====
section
/-!
DEFINITION. The five commands of the register-access contract (30_encoding.md R80), one constructor per row of
spec/opcode_table.json. Every command carries both operand fields of its word: a read's `val` is ignored by what the
command does, but it is latched (R98) and no bit of a word is dropped by decoding (R103).
-/

namespace Sys2Proof

/-- A command (R80, R81). All 256 values of each field are accepted (R83). -/
inductive Instr where
  /-- `read_register(address)` (41_read.md R131). -/
  | rdreg (addr val : Byte)
  /-- `read_block(address, measurement burst)` (R132). -/
  | rdmeas (addr val : Byte)
  /-- `read_block(address, pressure/temperature calibration burst)` (R133). -/
  | rdcalpt (addr val : Byte)
  /-- `read_block(address, humidity calibration burst)` (R134). -/
  | rdcalh (addr val : Byte)
  /-- `write_register(address, value)` (42_write.md R150). -/
  | wrreg (addr val : Byte)
  deriving DecidableEq, Repr

end Sys2Proof
end

