-- ==== Sys2Proof/WellFormed.lean ====
section
/-!
DEFINITION. What must hold of an operand or a parameter before it means anything. The framer checks no operand of a
command (30_encoding.md R83, 20_memory.md R59), so the only checks are on the `op` field of a word (R97, R103) and on
the open parameters (00_scope.md R6, R7).
-/

namespace Sys2Proof

/-- The fields name a command: `op` is at most 0b100 (R97, R103). -/
def CmdFields.wellFormed (c : CmdFields) : Bool :=
  c.op.toNat ≤ 4

/-- Every `Instr` is a command: neither `addr` nor `val` is checked, all 256 values of each are accepted (R83). -/
def Instr.wellFormed : Instr → Bool
  | .rdreg _ _ | .rdmeas _ _ | .rdcalpt _ _ | .rdcalh _ _ | .wrreg _ _ => true

/-- Each open length is a positive number of bytes (R7, R208 `ParamsFixed`) and `ERR_W` is at least 1 (R6). -/
def Params.wellFormed (p : Params) : Bool :=
  1 ≤ p.lenMeas && 1 ≤ p.lenCalpt && 1 ≤ p.lenCalh && 1 ≤ p.errW

end Sys2Proof
end

