-- ==== Sys2Proof/Decode.lean ====
section
/-!
DEFINITION. The decoder, total on 19-bit words (30_encoding.md R103), and the encoder written from the same tables
(R81, R82). A word with a reserved `op` is refused by name (R97).
-/

namespace Sys2Proof

/-- What a word decodes to: `Cmd(op, addr, val)` or `Refused` (R103). -/
inductive Decoded where
  | cmd (i : Instr)
  /-- The word spells no command: its `op` is 0b101, 0b110 or 0b111 (R97). -/
  | reservedOp (op : BitVec 3)
  deriving DecidableEq, Repr

/-- The fields of a command word: `op` is bits 18:16, `addr` bits 15:8, `val` bits 7:0 (R81). -/
def fieldsOf (w : CmdWord) : CmdFields :=
  { op := w.extractLsb' 16 3, addr := w.extractLsb' 8 8, val := w.extractLsb' 0 8 }

/-- The command the fields name, by the table of R82. -/
def decodeFields (c : CmdFields) : Decoded :=
  match c.op.toNat with
  | 0 => .cmd (.rdreg c.addr c.val)
  | 1 => .cmd (.rdmeas c.addr c.val)
  | 2 => .cmd (.rdcalpt c.addr c.val)
  | 3 => .cmd (.rdcalh c.addr c.val)
  | 4 => .cmd (.wrreg c.addr c.val)
  | _ => .reservedOp c.op

/-- `Decode(w)` (R103). -/
def decode (w : CmdWord) : Decoded :=
  decodeFields (fieldsOf w)

/-- The word `{op, addr, val}` (R81). -/
def wordOf (op : BitVec 3) (addr val : Byte) : CmdWord :=
  op ++ addr ++ val

/-- The word of a command, by the table of R82; the ignored `val` of a read is kept (R98, R103). -/
def encode : Instr → CmdWord
  | .rdreg addr val => wordOf 0b000 addr val
  | .rdmeas addr val => wordOf 0b001 addr val
  | .rdcalpt addr val => wordOf 0b010 addr val
  | .rdcalh addr val => wordOf 0b011 addr val
  | .wrreg addr val => wordOf 0b100 addr val

/-- A number as a word on the 19 wires of `cmd_word` (R21); a number that needs more wires is no command word. -/
def wordOfNat (w : Nat) : Option CmdWord :=
  if w < 2 ^ 19 then some (BitVec.ofNat 19 w) else none

/-- The command the decoder reads from an opcode-table word: bit 0 of the number is bit 0 of `cmd_word`. All commands
are one 19-bit word (R92), so nothing follows the bits the table gives. -/
def decodeTableWord (_nbits w : Nat) : Option Instr :=
  match wordOfNat w with
  | none => none
  | some cw =>
    match decode cw with
    | .cmd i => some i
    | .reservedOp _ => none

end Sys2Proof
end

