-- ==== Sys2Proof/Machine/Operands.lean ====
section
/-!
DEFINITION. The register address encoder (30_encoding.md R84 to R88), the frames (R89, R90), the lengths (R91, R92),
and the frame function of 40_sequencer.md R110.
-/

namespace Sys2Proof.Machine

/-- The address byte of a read: bit 7 forced to 1 (R85). -/
def readAddrByte (addr : Byte) : Byte :=
  addr ||| Config.readMark

/-- The address byte of a write: bit 7 forced to 0 (R86). -/
def writeAddrByte (addr : Byte) : Byte :=
  addr &&& Config.writeMask

/-- The marker of an address byte: 1 = read, 0 = write (R84). -/
def markerOf (b : Byte) : Bool :=
  b.getLsbD 7

/-- The select field of an address byte or of a command's address: the register it names, one of 128 (R84,
20_memory.md R50, R53). -/
def selectOf (b : Byte) : BitVec 7 :=
  b.extractLsb' 0 7

/-- The read frame: one outbound byte, `n` inbound bytes (R89); `MemRead(addr, n)` of 00_scope.md R9. -/
def readFrame (addr : Byte) (n : Nat) : BusRequest :=
  { out := [readAddrByte addr], n := n }

/-- The write frame: the address byte, then the value byte unchanged; no inbound byte (R90, 20_memory.md R56);
`MemWrite(addr, 1, val)` of 00_scope.md R9. -/
def writeFrame (addr val : Byte) : BusRequest :=
  { out := [writeAddrByte addr, val], n := 0 }

/-- Whether a command is a read (R82). -/
def opIsRead : Op → Bool
  | .rdreg | .rdmeas | .rdcalpt | .rdcalh => true
  | .wrreg => false

/-- The code of `op` in a command word (R82). -/
def opCode : Op → BitVec 3
  | .rdreg => 0b000
  | .rdmeas => 0b001
  | .rdcalpt => 0b010
  | .rdcalh => 0b011
  | .wrreg => 0b100

/-- `InLen(op)` (R91). -/
def inLength (p : Params) : Op → Nat
  | .rdreg => Config.lenSingle
  | .rdmeas => p.lenMeas
  | .rdcalpt => p.lenCalpt
  | .rdcalh => p.lenCalh
  | .wrreg => 0

/-- `OutLen(op)` (R92). -/
def outLength : Op → Nat
  | .rdreg | .rdmeas | .rdcalpt | .rdcalh => 1
  | .wrreg => 2

/-- The `op` of a command (R82). -/
def opOf : Instr → Op
  | .rdreg _ _ => .rdreg
  | .rdmeas _ _ => .rdmeas
  | .rdcalpt _ _ => .rdcalpt
  | .rdcalh _ _ => .rdcalh
  | .wrreg _ _ => .wrreg

/-- The `addr` field of a command (R81). -/
def addrOf : Instr → Byte
  | .rdreg addr _ | .rdmeas addr _ | .rdcalpt addr _ | .rdcalh addr _ | .wrreg addr _ => addr

/-- The `val` field of a command (R81). -/
def valOf : Instr → Byte
  | .rdreg _ val | .rdmeas _ val | .rdcalpt _ val | .rdcalh _ val | .wrreg _ val => val

/-- The command with these three fields. -/
def instrOf (op : Op) (addr val : Byte) : Instr :=
  match op with
  | .rdreg => .rdreg addr val
  | .rdmeas => .rdmeas addr val
  | .rdcalpt => .rdcalpt addr val
  | .rdcalh => .rdcalh addr val
  | .wrreg => .wrreg addr val

/-- `Frame(op, addr, val)`, the bus request of a command (40_sequencer.md R110). -/
def frame (p : Params) : Instr → BusRequest
  | .rdreg addr _ => readFrame addr Config.lenSingle
  | .rdmeas addr _ => readFrame addr p.lenMeas
  | .rdcalpt addr _ => readFrame addr p.lenCalpt
  | .rdcalh addr _ => readFrame addr p.lenCalh
  | .wrreg addr val => writeFrame addr val

end Sys2Proof.Machine
end

