-- ==== Sys2Proof/Machine/Translator.lean ====
section
/-!
DEFINITION. The error-code translator (60_exceptions.md R163 to R167) and the bit form of the error word
(30_encoding.md R96). State keeps the nested value; R96 says the two carry the same information.
-/

namespace Sys2Proof.Machine

/-- Stage 1, bus to transport level: `Transport.Bus(e)` (R163). -/
def wrapTransport (e : Nat) : TransportError :=
  .bus e

/-- Stage 2, transport to device level: `Device.Transport(t)` (R164). -/
def wrapDevice (t : TransportError) : DeviceError :=
  .transport t

/-- Both stages: `Device.Transport(Transport.Bus(e))` (R166). -/
def translateError (e : Nat) : DeviceError :=
  wrapDevice (wrapTransport e)

/-- The native error inside a layered error (R165). -/
def nativeOf : DeviceError → Nat
  | .transport (.bus e) => e

/-- `dev_kind` (R96): 0b01 is TRANSPORT. -/
def devKind : DeviceError → BitVec 2
  | .transport _ => 0b01

/-- `xport_kind` (R96): 1 is BUS. -/
def xportKind : DeviceError → BitVec 1
  | .transport (.bus _) => 1

/-- The error word `{dev_kind, xport_kind, native}`, `ERR_W` + 3 bits (R96). -/
def errorWord (errW : Nat) (d : DeviceError) : BitVec (2 + 1 + errW) :=
  devKind d ++ xportKind d ++ BitVec.ofNat errW (nativeOf d)

end Sys2Proof.Machine
end

