-- ==== Sys2Proof/Machine/Ops.lean ====
section
/-!
DEFINITION. The steps every command shares (40_sequencer.md R112 to R116): ACCEPT, COMPLETE after a successful read or
write, raising `BusFail` (60_exceptions.md R166), RETIRE; and the input ports. The framer has no memory of its own
(20_memory.md R52): these operations touch its registers, the bus log and the ports only.
-/

namespace Sys2Proof.Machine

/-- What a step answers. -/
abbrev StepOutcome := Host.Outcome State Fault Refusal

/-- No command presented, the response not taken, the bus silent. -/
def quietPorts : Ports :=
  { cmdValid := false, cmdWord := 0, rspReady := false, busDone := false, busFail := false, busIn := [], busErr := 0 }

/-- The input signals in this step (10_state.md R21 to R23). -/
def portsNow (s : State) : Ports :=
  match s.inputs with
  | [] => quietPorts
  | p :: _ => p

/-- An inbound buffer none of whose cells holds a value (10_state.md R28). -/
def emptyBuffer (p : Params) : List (Option Byte) :=
  List.replicate p.maxLen none

/-- The inbound bytes of a successful transfer of `n` bytes: the levels of `bus_in[0..n-1]`, so exactly `n` bytes
(20_memory.md R54). Positions from `n` on hold no value and are not looked at (30_encoding.md R94). -/
def inboundBytes (n : Nat) (p : Ports) : List Byte :=
  (p.busIn ++ List.replicate n 0).take n

/-- A successful transfer of `n` bytes has `n` bytes (20_memory.md R54). -/
@[simp] theorem inboundBytes_length (n : Nat) (p : Ports) : (inboundBytes n p).length = n := by
  simp [inboundBytes]

/-- The answer on the bus channel to a request for `n` bytes: none while `bus_done` is 0 (10_state.md R23,
30_encoding.md R94). -/
def answerOn (n : Nat) (p : Ports) : Option (BusAnswer n) :=
  if p.busDone then
    some (if p.busFail then .fail p.busErr else .ok (inboundBytes n p) (inboundBytes_length n p))
  else none

/-- Write the inbound bytes into the first cells, position for position; the other cells stay (10_state.md R28,
40_sequencer.md R114). -/
def captureCells : List Byte → List (Option Byte) → List (Option Byte)
  | [], cells => cells
  | _ :: _, [] => []
  | b :: bytes, _ :: cells => some b :: captureCells bytes cells

/-- ACCEPT (R112): latch the command, present the bus request `req`, discard the response registers, append one record
to the bus log, enter XFER. -/
def accept (op : Op) (addr val : Byte) (req : BusRequest) (s : State) : State :=
  { s with
    phase := .xfer
    cmdOp := some op
    cmdAddr := some addr
    cmdVal := some val
    outLen := some (BitVec.ofNat 2 req.out.length)
    outBuf0 := req.out[0]?
    outBuf1 := req.out[1]?
    inLen := some req.n
    inBuf := emptyBuffer s.params
    rspStatus := none
    rspErr := none
    log := s.log ++ [req] }

/-- COMPLETE of a read whose transfer succeeded, `n` being `in_len` (R114). -/
def captureRead (n : Nat) (s : State) : State :=
  { s with
    phase := .resp
    inBuf := captureCells (inboundBytes n (portsNow s)) s.inBuf
    rspStatus := some (statusOf false)
    rspErr := none }

/-- COMPLETE of a write whose transfer succeeded: `in_buf` is not written and no inbound byte is looked at (R114,
42_write.md R151). -/
def ackWrite (s : State) : State :=
  { s with
    phase := .resp
    rspStatus := some (statusOf false)
    rspErr := none }

/-- `raise BusFail(e)`, the framer's one exception (60_exceptions.md R166): the response becomes the doubly wrapped
error and no inbound cell holds a value. -/
def raiseBusFail (e : Nat) (s : State) : State :=
  { s with
    phase := .resp
    inBuf := emptyBuffer s.params
    rspStatus := some (statusOf true)
    rspErr := some (translateError e) }

/-- RETIRE (R116): `phase <- IDLE` and nothing else. It is also the return from `BusFail` (60_exceptions.md R172). -/
def retire (s : State) : State :=
  { s with phase := .idle }

/-- COMPLETE after a successful transfer in a state that lacks an element COMPLETE reads (`cmd_op`, or a read's `in_len`).
DESIGN CHOICE, log entry 2: what does not depend on that element is as R114 says, and what does depend on it, the content of
`in_buf`, holds no value (10_state.md R41). No run reaches such a state. -/
def completeUnread (s : State) : State :=
  { s with
    phase := .resp
    inBuf := emptyBuffer s.params
    rspStatus := some (statusOf false)
    rspErr := none }

/-- Deliver a successful read: capture `in_len` bytes (R114). -/
def deliverRead (s : State) : State :=
  match s.inLen with
  | some n => captureRead n s
  | none => completeUnread s

/-- Deliver a successful transfer of a command by its `op` (R114). -/
def deliverOf (op : Op) (s : State) : State :=
  if opIsRead op then deliverRead s else ackWrite s

/-- Deliver a successful transfer of the command in flight. Of the latches it reads `cmd_op` only (10_state.md R25, R40). -/
def deliverLatched (s : State) : State :=
  match s.cmdOp with
  | some op => deliverOf op s
  | none => completeUnread s

/-- What happens in XFER: hold the request until the bus answers (R113, R120), then COMPLETE, by `deliver` on success
(R114) and by raising `BusFail` on failure (R115). Waiting and failing read no latch. -/
def completeStep (deliver : State → State) (s : State) : StepOutcome :=
  if (portsNow s).busDone then
    .next (if (portsNow s).busFail then raiseBusFail (portsNow s).busErr s else deliver s)
  else .next s

/-- What happens in RESP: hold the response until the issuer takes it, then RETIRE (R116, R117). -/
def retireStep (s : State) : StepOutcome :=
  if (portsNow s).rspReady then .next (retire s) else .next s

/-- The step a command takes in the phase it is in: ACCEPT, COMPLETE or RETIRE (R111). -/
def commandStep (op : Op) (addr val : Byte) (req : BusRequest) (s : State) : StepOutcome :=
  match s.phase with
  | .idle => .next (accept op addr val req s)
  | .xfer => completeStep (deliverOf op) s
  | .resp => retireStep s

/-- The command the latches hold: the one in flight in XFER and RESP (10_state.md R25). It is a view, and no step reads it. -/
def inFlight (s : State) : Option Instr :=
  match s.cmdOp, s.cmdAddr, s.cmdVal with
  | some op, some addr, some val => some (instrOf op addr val)
  | _, _, _ => none

/-- The command on the command channel in this step, if a word is presented and spells one (10_state.md R21,
30_encoding.md R97, R103). -/
def presented (s : State) : Option Instr :=
  if (portsNow s).cmdValid then
    match decode (portsNow s).cmdWord with
    | .cmd i => some i
    | .reservedOp _ => none
  else none

/-- The step's inputs are used up: the next step reads the next levels of the ports. -/
def tick (s : State) : State :=
  { s with inputs := s.inputs.tail }

/-- `tick` after a step that answers a next state. -/
def afterTick : StepOutcome → StepOutcome
  | .next s => .next (tick s)
  | .fault r => .fault r
  | .refused r => .refused r

/-- The framer ready for a command, with the word `w` presented on the command channel in its next step and the other
inputs as they were. A number that is no 19-bit word is not presented. -/
def presentWord (w : Nat) (s : State) : State :=
  match wordOfNat w with
  | some cw =>
    { s with
      phase := .idle
      inputs := { portsNow s with cmdValid := true, cmdWord := cw } :: s.inputs.tail }
  | none =>
    { s with
      phase := .idle
      inputs := { portsNow s with cmdValid := false } :: s.inputs.tail }

end Sys2Proof.Machine
end

