-- ==== Sys2Proof/Machine/Read.lean ====
section
/-!
DEFINITION. The four read commands (41_read.md R130 to R137). They share the read template of R130 and differ only in the
inbound length.
-/

namespace Sys2Proof.Machine

/-- RDREG (R131): a read of `LEN_SINGLE` = 1 byte. -/
def execRdreg (addr val : Byte) (s : State) : StepOutcome :=
  commandStep .rdreg addr val (readFrame addr Config.lenSingle) s

/-- RDMEAS (R132): a read of `LEN_MEAS` bytes. -/
def execRdmeas (addr val : Byte) (s : State) : StepOutcome :=
  commandStep .rdmeas addr val (readFrame addr s.params.lenMeas) s

/-- RDCALPT (R133): a read of `LEN_CALPT` bytes. -/
def execRdcalpt (addr val : Byte) (s : State) : StepOutcome :=
  commandStep .rdcalpt addr val (readFrame addr s.params.lenCalpt) s

/-- RDCALH (R134): a read of `LEN_CALH` bytes. -/
def execRdcalh (addr val : Byte) (s : State) : StepOutcome :=
  commandStep .rdcalh addr val (readFrame addr s.params.lenCalh) s

end Sys2Proof.Machine
end

