-- ==== Sys2Proof/Machine/Write.lean ====
section
/-!
DEFINITION. The write command (42_write.md R150 to R154).
-/

namespace Sys2Proof.Machine

/-- WRREG (R150): one two-byte frame, no inbound byte; a success acknowledges and carries no data (R151, R152). -/
def execWrreg (addr val : Byte) (s : State) : StepOutcome :=
  commandStep .wrreg addr val (writeFrame addr val) s

end Sys2Proof.Machine
end

