-- ==== Sys2Proof/Machine/Dispatch.lean ====
section
/-! DEFINITION. One arm per command: `exec i s` is the step (ACCEPT, COMPLETE or RETIRE, by `s.phase`) of command `i`. -/

namespace Sys2Proof.Machine

def exec (i : Instr) (s : State) : Host.Outcome State Fault Refusal :=
  match i with
  | .rdreg addr val => Sys2Proof.Machine.execRdreg addr val s
  | .rdmeas addr val => Sys2Proof.Machine.execRdmeas addr val s
  | .rdcalpt addr val => Sys2Proof.Machine.execRdcalpt addr val s
  | .rdcalh addr val => Sys2Proof.Machine.execRdcalh addr val s
  | .wrreg addr val => Sys2Proof.Machine.execWrreg addr val s

end Sys2Proof.Machine
end

