-- ==== Sys2Proof/Machine/Sequencer.lean ====
section
/-!
DEFINITION. The transaction sequencer (40_sequencer.md R111 to R124): which command's step is taken in each phase.
-/

namespace Sys2Proof.Machine

/-- One step on the inputs of this step (the table of R117). In IDLE the presented command is accepted; with none
presented, or a reserved `op` presented, nothing changes (R97). In XFER the command in flight waits or completes, by
`cmd_op` alone (10_state.md R25). In RESP the response waits or is taken, whatever the command was (R116). A row of the table whose step is "none" leaves the
framer as it is. -/
def sequencerStep (s : State) : StepOutcome :=
  match s.phase with
  | .idle =>
    match presented s with
    | some i => exec i s
    | none => .next s
  | .xfer => completeStep deliverLatched s
  | .resp => retireStep s

end Sys2Proof.Machine
end

