-- ==== Sys2Proof/Machine/Step.lean ====
section
/-!
DEFINITION. The machine's step, and a command word placed where the next step takes its command. The framer fetches
nothing (10_state.md R30): commands arrive on the command channel, so a word is placed by presenting it there.
-/

namespace Sys2Proof.Machine

/-- One step: the sequencer on the inputs of this step; the next step reads the next inputs. -/
def step (s : State) : Host.Outcome State Fault Refusal :=
  afterTick (sequencerStep s)

/-- `s` with the opcode-table word `w` presented by the issuer in the next step, the framer being ready for it. -/
def State.withFetchWord (s : State) (_nbits w : Nat) : State :=
  presentWord w s

end Sys2Proof.Machine
end

