-- ==== Sys2Proof/Laws/Decode.lean ====
section
/-!
SUPPORT. The bits and fields of a command word, for the decoder and the encoder.
-/

namespace Sys2Proof

/-- The bits of `{op, addr, val}` (30_encoding.md R81). -/
theorem getLsbD_wordOf (op : BitVec 3) (addr val : Byte) (k : Nat) :
    (wordOf op addr val).getLsbD k =
      if k < 8 then val.getLsbD k else if k < 16 then addr.getLsbD (k - 8) else op.getLsbD (k - 16) := by
  have h : (wordOf op addr val).getLsbD k =
      if k < 8 then val.getLsbD k else (op ++ addr : BitVec (3 + 8)).getLsbD (k - 8) :=
    BitVec.getLsbD_append (x := (op ++ addr : BitVec (3 + 8))) (y := val)
  rw [h, BitVec.getLsbD_append]
  by_cases h8 : k < 8
  · simp [h8]
  · by_cases h16 : k < 16
    · simp [h8, h16, show k - 8 < 8 by omega]
    · simp [h8, h16, show ¬ k - 8 < 8 by omega, show k - 8 - 8 = k - 16 by omega]

@[simp] theorem fieldsOf_wordOf (op : BitVec 3) (addr val : Byte) : fieldsOf (wordOf op addr val) = ⟨op, addr, val⟩ := by
  simp only [fieldsOf, CmdFields.mk.injEq]
  refine ⟨?_, ?_, ?_⟩ <;> apply BitVec.eq_of_getLsbD_eq <;> intro k hk <;>
    rw [BitVec.getLsbD_extractLsb', getLsbD_wordOf]
  · simp [hk, show ¬ 16 + k < 8 by omega, show ¬ 16 + k < 16 by omega]
  · simp [hk, show ¬ 8 + k < 8 by omega, show 8 + k < 16 by omega]
  · simp [hk]

/-- The three fields make up the whole word (30_encoding.md R81, R103). -/
theorem wordOf_fieldsOf (w : CmdWord) : wordOf (fieldsOf w).op (fieldsOf w).addr (fieldsOf w).val = w := by
  apply BitVec.eq_of_getLsbD_eq
  intro k hk
  rw [getLsbD_wordOf]
  simp only [fieldsOf, BitVec.getLsbD_extractLsb']
  by_cases h8 : k < 8
  · simp [h8]
  · by_cases h16 : k < 16
    · simp [h8, h16, show k - 8 < 8 by omega, show 8 + (k - 8) = k by omega]
    · simp [h8, h16, show k - 16 < 3 by omega, show 16 + (k - 16) = k by omega]

/-- The eight values of the `op` field, by the table of 30_encoding.md R82. -/
theorem op_cases (op : BitVec 3) :
    op = 0 ∨ op = 1 ∨ op = 2 ∨ op = 3 ∨ op = 4 ∨ 4 < op.toNat := by
  revert op
  decide

/-- The decoder answers a command exactly for the five codes of 30_encoding.md R82. -/
theorem decodeFields_cases (op : BitVec 3) (addr val : Byte) :
    (op = 0 ∧ decodeFields ⟨op, addr, val⟩ = .cmd (.rdreg addr val)) ∨
    (op = 1 ∧ decodeFields ⟨op, addr, val⟩ = .cmd (.rdmeas addr val)) ∨
    (op = 2 ∧ decodeFields ⟨op, addr, val⟩ = .cmd (.rdcalpt addr val)) ∨
    (op = 3 ∧ decodeFields ⟨op, addr, val⟩ = .cmd (.rdcalh addr val)) ∨
    (op = 4 ∧ decodeFields ⟨op, addr, val⟩ = .cmd (.wrreg addr val)) ∨
    (4 < op.toNat ∧ decodeFields ⟨op, addr, val⟩ = .reservedOp op) := by
  rcases op_cases op with rfl | rfl | rfl | rfl | rfl | h
  · exact .inl ⟨rfl, rfl⟩
  · exact .inr (.inl ⟨rfl, rfl⟩)
  · exact .inr (.inr (.inl ⟨rfl, rfl⟩))
  · exact .inr (.inr (.inr (.inl ⟨rfl, rfl⟩)))
  · exact .inr (.inr (.inr (.inr (.inl ⟨rfl, rfl⟩))))
  · refine .inr (.inr (.inr (.inr (.inr ⟨h, ?_⟩))))
    simp only [decodeFields]
    split <;> first | omega | rfl

end Sys2Proof
end

