-- ==== Sys2Proof/Laws/State.lean ====
section
/-!
SUPPORT. One lemma per field per update of State, so that no later proof unfolds a record update.
-/

namespace Sys2Proof.Machine

@[simp] theorem accept_params (op : Op) (addr val : Byte) (req : BusRequest) (s : State) : (accept op addr val req s).params = s.params := rfl
@[simp] theorem accept_phase (op : Op) (addr val : Byte) (req : BusRequest) (s : State) : (accept op addr val req s).phase = .xfer := rfl
@[simp] theorem accept_cmdOp (op : Op) (addr val : Byte) (req : BusRequest) (s : State) : (accept op addr val req s).cmdOp = some op := rfl
@[simp] theorem accept_cmdAddr (op : Op) (addr val : Byte) (req : BusRequest) (s : State) : (accept op addr val req s).cmdAddr = some addr := rfl
@[simp] theorem accept_cmdVal (op : Op) (addr val : Byte) (req : BusRequest) (s : State) : (accept op addr val req s).cmdVal = some val := rfl
@[simp] theorem accept_outLen (op : Op) (addr val : Byte) (req : BusRequest) (s : State) : (accept op addr val req s).outLen = some (BitVec.ofNat 2 req.out.length) := rfl
@[simp] theorem accept_outBuf0 (op : Op) (addr val : Byte) (req : BusRequest) (s : State) : (accept op addr val req s).outBuf0 = req.out[0]? := rfl
@[simp] theorem accept_outBuf1 (op : Op) (addr val : Byte) (req : BusRequest) (s : State) : (accept op addr val req s).outBuf1 = req.out[1]? := rfl
@[simp] theorem accept_inLen (op : Op) (addr val : Byte) (req : BusRequest) (s : State) : (accept op addr val req s).inLen = some req.n := rfl
@[simp] theorem accept_inBuf (op : Op) (addr val : Byte) (req : BusRequest) (s : State) : (accept op addr val req s).inBuf = emptyBuffer s.params := rfl
@[simp] theorem accept_rspStatus (op : Op) (addr val : Byte) (req : BusRequest) (s : State) : (accept op addr val req s).rspStatus = none := rfl
@[simp] theorem accept_rspErr (op : Op) (addr val : Byte) (req : BusRequest) (s : State) : (accept op addr val req s).rspErr = none := rfl
@[simp] theorem accept_log (op : Op) (addr val : Byte) (req : BusRequest) (s : State) : (accept op addr val req s).log = s.log ++ [req] := rfl
@[simp] theorem accept_inputs (op : Op) (addr val : Byte) (req : BusRequest) (s : State) : (accept op addr val req s).inputs = s.inputs := rfl

@[simp] theorem captureRead_params (n : Nat) (s : State) : (captureRead n s).params = s.params := rfl
@[simp] theorem captureRead_phase (n : Nat) (s : State) : (captureRead n s).phase = .resp := rfl
@[simp] theorem captureRead_cmdOp (n : Nat) (s : State) : (captureRead n s).cmdOp = s.cmdOp := rfl
@[simp] theorem captureRead_cmdAddr (n : Nat) (s : State) : (captureRead n s).cmdAddr = s.cmdAddr := rfl
@[simp] theorem captureRead_cmdVal (n : Nat) (s : State) : (captureRead n s).cmdVal = s.cmdVal := rfl
@[simp] theorem captureRead_outLen (n : Nat) (s : State) : (captureRead n s).outLen = s.outLen := rfl
@[simp] theorem captureRead_outBuf0 (n : Nat) (s : State) : (captureRead n s).outBuf0 = s.outBuf0 := rfl
@[simp] theorem captureRead_outBuf1 (n : Nat) (s : State) : (captureRead n s).outBuf1 = s.outBuf1 := rfl
@[simp] theorem captureRead_inLen (n : Nat) (s : State) : (captureRead n s).inLen = s.inLen := rfl
@[simp] theorem captureRead_inBuf (n : Nat) (s : State) : (captureRead n s).inBuf = captureCells (inboundBytes n (portsNow s)) s.inBuf := rfl
@[simp] theorem captureRead_rspStatus (n : Nat) (s : State) : (captureRead n s).rspStatus = some .ok := rfl
@[simp] theorem captureRead_rspErr (n : Nat) (s : State) : (captureRead n s).rspErr = none := rfl
@[simp] theorem captureRead_log (n : Nat) (s : State) : (captureRead n s).log = s.log := rfl
@[simp] theorem captureRead_inputs (n : Nat) (s : State) : (captureRead n s).inputs = s.inputs := rfl

@[simp] theorem ackWrite_params (s : State) : (ackWrite s).params = s.params := rfl
@[simp] theorem ackWrite_phase (s : State) : (ackWrite s).phase = .resp := rfl
@[simp] theorem ackWrite_cmdOp (s : State) : (ackWrite s).cmdOp = s.cmdOp := rfl
@[simp] theorem ackWrite_cmdAddr (s : State) : (ackWrite s).cmdAddr = s.cmdAddr := rfl
@[simp] theorem ackWrite_cmdVal (s : State) : (ackWrite s).cmdVal = s.cmdVal := rfl
@[simp] theorem ackWrite_outLen (s : State) : (ackWrite s).outLen = s.outLen := rfl
@[simp] theorem ackWrite_outBuf0 (s : State) : (ackWrite s).outBuf0 = s.outBuf0 := rfl
@[simp] theorem ackWrite_outBuf1 (s : State) : (ackWrite s).outBuf1 = s.outBuf1 := rfl
@[simp] theorem ackWrite_inLen (s : State) : (ackWrite s).inLen = s.inLen := rfl
@[simp] theorem ackWrite_inBuf (s : State) : (ackWrite s).inBuf = s.inBuf := rfl
@[simp] theorem ackWrite_rspStatus (s : State) : (ackWrite s).rspStatus = some .ok := rfl
@[simp] theorem ackWrite_rspErr (s : State) : (ackWrite s).rspErr = none := rfl
@[simp] theorem ackWrite_log (s : State) : (ackWrite s).log = s.log := rfl
@[simp] theorem ackWrite_inputs (s : State) : (ackWrite s).inputs = s.inputs := rfl

@[simp] theorem completeUnread_params (s : State) : (completeUnread s).params = s.params := rfl
@[simp] theorem completeUnread_phase (s : State) : (completeUnread s).phase = .resp := rfl
@[simp] theorem completeUnread_cmdOp (s : State) : (completeUnread s).cmdOp = s.cmdOp := rfl
@[simp] theorem completeUnread_cmdAddr (s : State) : (completeUnread s).cmdAddr = s.cmdAddr := rfl
@[simp] theorem completeUnread_cmdVal (s : State) : (completeUnread s).cmdVal = s.cmdVal := rfl
@[simp] theorem completeUnread_outLen (s : State) : (completeUnread s).outLen = s.outLen := rfl
@[simp] theorem completeUnread_outBuf0 (s : State) : (completeUnread s).outBuf0 = s.outBuf0 := rfl
@[simp] theorem completeUnread_outBuf1 (s : State) : (completeUnread s).outBuf1 = s.outBuf1 := rfl
@[simp] theorem completeUnread_inLen (s : State) : (completeUnread s).inLen = s.inLen := rfl
@[simp] theorem completeUnread_inBuf (s : State) : (completeUnread s).inBuf = emptyBuffer s.params := rfl
@[simp] theorem completeUnread_rspStatus (s : State) : (completeUnread s).rspStatus = some .ok := rfl
@[simp] theorem completeUnread_rspErr (s : State) : (completeUnread s).rspErr = none := rfl
@[simp] theorem completeUnread_log (s : State) : (completeUnread s).log = s.log := rfl
@[simp] theorem completeUnread_inputs (s : State) : (completeUnread s).inputs = s.inputs := rfl

@[simp] theorem raiseBusFail_params (e : Nat) (s : State) : (raiseBusFail e s).params = s.params := rfl
@[simp] theorem raiseBusFail_phase (e : Nat) (s : State) : (raiseBusFail e s).phase = .resp := rfl
@[simp] theorem raiseBusFail_cmdOp (e : Nat) (s : State) : (raiseBusFail e s).cmdOp = s.cmdOp := rfl
@[simp] theorem raiseBusFail_cmdAddr (e : Nat) (s : State) : (raiseBusFail e s).cmdAddr = s.cmdAddr := rfl
@[simp] theorem raiseBusFail_cmdVal (e : Nat) (s : State) : (raiseBusFail e s).cmdVal = s.cmdVal := rfl
@[simp] theorem raiseBusFail_outLen (e : Nat) (s : State) : (raiseBusFail e s).outLen = s.outLen := rfl
@[simp] theorem raiseBusFail_outBuf0 (e : Nat) (s : State) : (raiseBusFail e s).outBuf0 = s.outBuf0 := rfl
@[simp] theorem raiseBusFail_outBuf1 (e : Nat) (s : State) : (raiseBusFail e s).outBuf1 = s.outBuf1 := rfl
@[simp] theorem raiseBusFail_inLen (e : Nat) (s : State) : (raiseBusFail e s).inLen = s.inLen := rfl
@[simp] theorem raiseBusFail_inBuf (e : Nat) (s : State) : (raiseBusFail e s).inBuf = emptyBuffer s.params := rfl
@[simp] theorem raiseBusFail_rspStatus (e : Nat) (s : State) : (raiseBusFail e s).rspStatus = some .fail := rfl
@[simp] theorem raiseBusFail_rspErr (e : Nat) (s : State) : (raiseBusFail e s).rspErr = some (.transport (.bus e)) := rfl
@[simp] theorem raiseBusFail_log (e : Nat) (s : State) : (raiseBusFail e s).log = s.log := rfl
@[simp] theorem raiseBusFail_inputs (e : Nat) (s : State) : (raiseBusFail e s).inputs = s.inputs := rfl

@[simp] theorem retire_params (s : State) : (retire s).params = s.params := rfl
@[simp] theorem retire_phase (s : State) : (retire s).phase = .idle := rfl
@[simp] theorem retire_cmdOp (s : State) : (retire s).cmdOp = s.cmdOp := rfl
@[simp] theorem retire_cmdAddr (s : State) : (retire s).cmdAddr = s.cmdAddr := rfl
@[simp] theorem retire_cmdVal (s : State) : (retire s).cmdVal = s.cmdVal := rfl
@[simp] theorem retire_outLen (s : State) : (retire s).outLen = s.outLen := rfl
@[simp] theorem retire_outBuf0 (s : State) : (retire s).outBuf0 = s.outBuf0 := rfl
@[simp] theorem retire_outBuf1 (s : State) : (retire s).outBuf1 = s.outBuf1 := rfl
@[simp] theorem retire_inLen (s : State) : (retire s).inLen = s.inLen := rfl
@[simp] theorem retire_inBuf (s : State) : (retire s).inBuf = s.inBuf := rfl
@[simp] theorem retire_rspStatus (s : State) : (retire s).rspStatus = s.rspStatus := rfl
@[simp] theorem retire_rspErr (s : State) : (retire s).rspErr = s.rspErr := rfl
@[simp] theorem retire_log (s : State) : (retire s).log = s.log := rfl
@[simp] theorem retire_inputs (s : State) : (retire s).inputs = s.inputs := rfl

@[simp] theorem tick_params (s : State) : (tick s).params = s.params := rfl
@[simp] theorem tick_phase (s : State) : (tick s).phase = s.phase := rfl
@[simp] theorem tick_cmdOp (s : State) : (tick s).cmdOp = s.cmdOp := rfl
@[simp] theorem tick_cmdAddr (s : State) : (tick s).cmdAddr = s.cmdAddr := rfl
@[simp] theorem tick_cmdVal (s : State) : (tick s).cmdVal = s.cmdVal := rfl
@[simp] theorem tick_outLen (s : State) : (tick s).outLen = s.outLen := rfl
@[simp] theorem tick_outBuf0 (s : State) : (tick s).outBuf0 = s.outBuf0 := rfl
@[simp] theorem tick_outBuf1 (s : State) : (tick s).outBuf1 = s.outBuf1 := rfl
@[simp] theorem tick_inLen (s : State) : (tick s).inLen = s.inLen := rfl
@[simp] theorem tick_inBuf (s : State) : (tick s).inBuf = s.inBuf := rfl
@[simp] theorem tick_rspStatus (s : State) : (tick s).rspStatus = s.rspStatus := rfl
@[simp] theorem tick_rspErr (s : State) : (tick s).rspErr = s.rspErr := rfl
@[simp] theorem tick_log (s : State) : (tick s).log = s.log := rfl
@[simp] theorem tick_inputs (s : State) : (tick s).inputs = s.inputs.tail := rfl

@[simp] theorem launch_params (p : Params) (env : List Ports) : (State.launch p env).params = p := rfl
@[simp] theorem launch_phase (p : Params) (env : List Ports) : (State.launch p env).phase = .idle := rfl
@[simp] theorem launch_cmdOp (p : Params) (env : List Ports) : (State.launch p env).cmdOp = none := rfl
@[simp] theorem launch_cmdAddr (p : Params) (env : List Ports) : (State.launch p env).cmdAddr = none := rfl
@[simp] theorem launch_cmdVal (p : Params) (env : List Ports) : (State.launch p env).cmdVal = none := rfl
@[simp] theorem launch_outLen (p : Params) (env : List Ports) : (State.launch p env).outLen = none := rfl
@[simp] theorem launch_outBuf0 (p : Params) (env : List Ports) : (State.launch p env).outBuf0 = none := rfl
@[simp] theorem launch_outBuf1 (p : Params) (env : List Ports) : (State.launch p env).outBuf1 = none := rfl
@[simp] theorem launch_inLen (p : Params) (env : List Ports) : (State.launch p env).inLen = none := rfl
@[simp] theorem launch_inBuf (p : Params) (env : List Ports) : (State.launch p env).inBuf = List.replicate p.maxLen none := rfl
@[simp] theorem launch_rspStatus (p : Params) (env : List Ports) : (State.launch p env).rspStatus = none := rfl
@[simp] theorem launch_rspErr (p : Params) (env : List Ports) : (State.launch p env).rspErr = none := rfl
@[simp] theorem launch_log (p : Params) (env : List Ports) : (State.launch p env).log = [] := rfl
@[simp] theorem launch_inputs (p : Params) (env : List Ports) : (State.launch p env).inputs = env := rfl

end Sys2Proof.Machine
end

