-- ==== Sys2Proof/Machine/Channels.lean ====
section
/-!
DEFINITION. What the framer shows on its three channels: the output signals (10_state.md R20 to R23), the bus request
(30_encoding.md R93) and the response (R95), all functions of the state. The bus answer (R94) is `answerOn` of Ops.
-/

namespace Sys2Proof.Machine

/-- The output signals (R21, R22, R23). A signal that holds no value is `none`. -/
structure Outputs where
  cmdReady : Bool
  busReqValid : Bool
  busOutLen : Option (BitVec 2)
  busOut0 : Option Byte
  busOut1 : Option Byte
  busInLen : Option Nat
  rspValid : Bool
  rspStatus : Option Status
  rspData : List (Option Byte)
  rspErr : Option DeviceError
  deriving DecidableEq, Repr

/-- The levels of the output signals: the handshakes follow from `phase`, the rest are the registers. -/
def outputs (s : State) : Outputs :=
  { cmdReady := s.phase == .idle
    busReqValid := s.phase == .xfer
    busOutLen := s.outLen
    busOut0 := s.outBuf0
    busOut1 := s.outBuf1
    busInLen := s.inLen
    rspValid := s.phase == .resp
    rspStatus := s.rspStatus
    rspData := s.inBuf
    rspErr := s.rspErr }

/-- `rsp_err` as the `ERR_W` + 3 bits of its signal (R22, 30_encoding.md R96). -/
def rspErrBits (s : State) : Option (BitVec (2 + 1 + s.params.errW)) :=
  s.rspErr.map (errorWord s.params.errW)

/-- The bytes in a run of cells, if every cell holds one. -/
def cellBytes : List (Option Byte) → Option (List Byte)
  | [] => some []
  | none :: _ => none
  | some b :: cells => (cellBytes cells).map (b :: ·)

/-- The outbound bytes `out_buf[0..out_len-1]` (R93), `out_len` being 1 or 2 (10_state.md R26). DESIGN CHOICE, log entry 16:
there are none to show if `out_len` holds no value (or neither 1 nor 2) or a cell below it holds no value, where R41 says only
that these must not be read. No run reaches such a state in XFER. -/
def outboundBytes (s : State) : Option (List Byte) :=
  match s.outLen.map (·.toNat) with
  | some 1 => cellBytes [s.outBuf0]
  | some 2 => cellBytes [s.outBuf0, s.outBuf1]
  | _ => none

/-- The bus request standing on the bus channel: there is one exactly while `phase = XFER` (10_state.md R23, R93). DESIGN
CHOICE, log entry 16: the view shows none if one of the registers it is read from holds no value. -/
def busRequest (s : State) : Option BusRequest :=
  match s.phase, outboundBytes s, s.inLen with
  | .xfer, some out, some n => some { out := out, n := n }
  | _, _, _ => none

/-- The response, one of three shapes (R95). -/
inductive Response where
  | okRead (bytes : List Byte)
  | okWrite
  | err (w : DeviceError)
  deriving DecidableEq, Repr

/-- The response as the issuer of the latched command reads it off the signals: the bytes in positions 0 to N-1 of a
read that ended OK, N being the command's inbound length; nothing after a write; the error word after a FAIL (R22,
R95). DESIGN CHOICE, log entries 9 and 16: it is read by the latched command, and is `none` where an element it needs holds
no value. -/
def response (s : State) : Option Response :=
  match s.rspStatus, s.cmdOp with
  | some .fail, _ => s.rspErr.map .err
  | some .ok, some op =>
    if opIsRead op then (cellBytes (s.inBuf.take (inLength s.params op))).map .okRead else some .okWrite
  | _, _ => none

end Sys2Proof.Machine
end

