-- ==== Sys2Proof/Laws/Ops.lean ====
section
/-!
SUPPORT. One lemma per shared operation that says all it can do, and the small lemmas of the ports, the latches, the
frames and the inbound buffer.
-/

namespace Sys2Proof.Machine

/-! The ports and the latches. -/

theorem portsNow_cons {s : State} {q : Ports} {rest : List Ports} (h : s.inputs = q :: rest) : portsNow s = q := by
  simp [portsNow, h]

theorem portsNow_nil {s : State} (h : s.inputs = []) : portsNow s = quietPorts := by
  simp [portsNow, h]

/-- The ports depend on the inputs alone. -/
theorem portsNow_congr {s t : State} (h : s.inputs = t.inputs) : portsNow s = portsNow t := by
  simp [portsNow, h]

theorem inFlight_congr {s t : State} (ho : s.cmdOp = t.cmdOp) (ha : s.cmdAddr = t.cmdAddr) (hv : s.cmdVal = t.cmdVal) :
    inFlight s = inFlight t := by
  simp only [inFlight, ho, ha, hv]

@[simp] theorem instrOf_fields (i : Instr) : instrOf (opOf i) (addrOf i) (valOf i) = i := by
  cases i <;> rfl

@[simp] theorem opOf_instrOf (op : Op) (addr val : Byte) : opOf (instrOf op addr val) = op := by
  cases op <;> rfl

@[simp] theorem addrOf_instrOf (op : Op) (addr val : Byte) : addrOf (instrOf op addr val) = addr := by
  cases op <;> rfl

@[simp] theorem valOf_instrOf (op : Op) (addr val : Byte) : valOf (instrOf op addr val) = val := by
  cases op <;> rfl

theorem inFlight_eq_some {s : State} {i : Instr} :
    inFlight s = some i ↔ s.cmdOp = some (opOf i) ∧ s.cmdAddr = some (addrOf i) ∧ s.cmdVal = some (valOf i) := by
  rcases ho : s.cmdOp with _ | op <;> rcases ha : s.cmdAddr with _ | a <;> rcases hv : s.cmdVal with _ | v <;>
    simp only [inFlight, ho, ha, hv, Option.some.injEq, reduceCtorEq, false_and, and_false]
  constructor
  · rintro rfl; simp
  · rintro ⟨rfl, rfl, rfl⟩; simp

theorem presented_eq_some {s : State} {i : Instr} :
    presented s = some i ↔ (portsNow s).cmdValid = true ∧ decode (portsNow s).cmdWord = .cmd i := by
  unfold presented
  split
  · rename_i h
    split <;> rename_i hd <;> simp [h, hd]
  · rename_i h
    simp [h]

/-- A placed word is presented: the next step's command is the one it spells. -/
theorem presented_presentWord {s : State} {w : Nat} {cw : CmdWord} {i : Instr} (hw : wordOfNat w = some cw)
    (hd : decode cw = .cmd i) : (presentWord w s).phase = .idle ∧ presented (presentWord w s) = some i := by
  refine ⟨by simp [presentWord, hw], presented_eq_some.2 ?_⟩
  simp [presentWord, hw, portsNow, hd]

/-! Frames. -/

/-- The bus request's inbound length is `InLen(op)` (30_encoding.md R91). -/
@[simp] theorem frame_n (p : Params) (i : Instr) : (frame p i).n = inLength p (opOf i) := by
  cases i <;> rfl

/-- The bus request's outbound length is `OutLen(op)` (30_encoding.md R92). -/
@[simp] theorem frame_out_length (p : Params) (i : Instr) : (frame p i).out.length = outLength (opOf i) := by
  cases i <;> rfl

/-- With the registers as ACCEPT writes them for command `i`, the outbound bytes are its frame's. -/
theorem outboundBytes_frame {s : State} {p : Params} {i : Instr}
    (hl : s.outLen = some (BitVec.ofNat 2 (outLength (opOf i)))) (h0 : s.outBuf0 = (frame p i).out[0]?)
    (h1 : s.outBuf1 = (frame p i).out[1]?) : outboundBytes s = some (frame p i).out := by
  simp only [outboundBytes, hl, h0, h1]
  cases i <;> rfl

/-- No inbound length exceeds the capacity of the buffer (10_state.md R33). -/
theorem inLength_le_maxLen (p : Params) (op : Op) : inLength p op ≤ p.maxLen := by
  cases op <;> simp [inLength, Params.maxLen, Config.lenSingle]

/-! The inbound buffer. -/

@[simp] theorem emptyBuffer_length (p : Params) : (emptyBuffer p).length = p.maxLen := by
  simp [emptyBuffer]

/-- Where `bus_in` lists a level, that is the byte in this position (20_memory.md R57). -/
theorem inboundBytes_getElem? {n k : Nat} {p : Ports} (hn : k < n) (hk : k < p.busIn.length) :
    (inboundBytes n p)[k]? = p.busIn[k]? := by
  rw [inboundBytes, List.getElem?_take_of_lt hn, List.getElem?_append_left hk]

/-- A list of `n` levels is the `n` inbound bytes. -/
theorem inboundBytes_of_length {n : Nat} {p : Ports} (h : p.busIn.length = n) : inboundBytes n p = p.busIn := by
  simp [inboundBytes, ← h]

/-- All that `answerOn` can be. -/
theorem answerOn_cases (n : Nat) (p : Ports) :
    (p.busDone = false ∧ answerOn n p = none) ∨
    (p.busDone = true ∧ p.busFail = true ∧ answerOn n p = some (.fail p.busErr)) ∨
    (p.busDone = true ∧ p.busFail = false ∧
      answerOn n p = some (.ok (inboundBytes n p) (inboundBytes_length n p))) := by
  unfold answerOn
  cases p.busDone <;> cases p.busFail <;> simp

theorem answerOn_eq_ok {n : Nat} {p : Ports} {bytes : List Byte} {h : bytes.length = n} :
    answerOn n p = some (.ok bytes h) ↔ p.busDone = true ∧ p.busFail = false ∧ bytes = inboundBytes n p := by
  rcases answerOn_cases n p with ⟨hd, e⟩ | ⟨hd, hf, e⟩ | ⟨hd, hf, e⟩ <;> simp [*]
  exact eq_comm

theorem answerOn_eq_fail {n : Nat} {p : Ports} {e : Nat} :
    answerOn n p = some (.fail e) ↔ p.busDone = true ∧ p.busFail = true ∧ e = p.busErr := by
  rcases answerOn_cases n p with ⟨hd, h⟩ | ⟨hd, hf, h⟩ | ⟨hd, hf, h⟩ <;> simp [*]
  exact eq_comm

@[simp] theorem captureCells_length (bytes : List Byte) (cells : List (Option Byte)) :
    (captureCells bytes cells).length = cells.length := by
  induction bytes generalizing cells with
  | nil => rfl
  | cons b bs ih => cases cells <;> simp [captureCells, ih]

/-- Capturing writes cell `k` exactly when there is a byte in position `k`, with that byte (40_sequencer.md R114). -/
theorem captureCells_getElem? (bytes : List Byte) (cells : List (Option Byte)) (k : Nat) :
    (captureCells bytes cells)[k]? =
      if k < bytes.length ∧ k < cells.length then some bytes[k]? else cells[k]? := by
  induction bytes generalizing cells k with
  | nil => simp [captureCells]
  | cons b bs ih =>
    cases cells with
    | nil => simp [captureCells]
    | cons c cs => cases k <;> simp [captureCells, ih]

/-- The cells past the inbound bytes stay. -/
theorem captureCells_drop {n : Nat} {bytes : List Byte} (hn : bytes.length = n) (cells : List (Option Byte)) :
    (captureCells bytes cells).drop n = cells.drop n := by
  subst hn
  induction bytes generalizing cells with
  | nil => rfl
  | cons b bs ih => cases cells <;> simp [captureCells, ih]

/-- With room for them all, the first cells hold the inbound bytes. -/
theorem captureCells_take {n : Nat} {bytes : List Byte} (hn : bytes.length = n) {cells : List (Option Byte)}
    (h : n ≤ cells.length) : (captureCells bytes cells).take n = bytes.map some := by
  subst hn
  induction bytes generalizing cells with
  | nil => rfl
  | cons b bs ih =>
    cases cells with
    | nil => simp at h
    | cons c cs =>
      simp only [List.length_cons, Nat.add_le_add_iff_right] at h
      simp [captureCells, ih h]

@[simp] theorem cellBytes_map_some (bytes : List Byte) : cellBytes (bytes.map some) = some bytes := by
  induction bytes with
  | nil => rfl
  | cons b bs ih => simp [cellBytes, ih]

theorem cellBytes_length {cells : List (Option Byte)} {bytes : List Byte} (h : cellBytes cells = some bytes) :
    bytes.length = cells.length := by
  induction cells generalizing bytes with
  | nil => simp only [cellBytes, Option.some.injEq] at h; simp [← h]
  | cons c cs ih =>
    cases c with
    | none => simp [cellBytes] at h
    | some b =>
      simp only [cellBytes, Option.map_eq_some_iff] at h
      obtain ⟨bs, hbs, rfl⟩ := h
      simp [ih hbs]

/-! What the shared operations answer. -/

/-- All that `deliverOf` can do: capture, acknowledge, or deliver nothing for want of an inbound length. -/
theorem deliverOf_cases (op : Op) (s : State) :
    (∃ n, opIsRead op = true ∧ s.inLen = some n ∧ deliverOf op s = captureRead n s) ∨
    (opIsRead op = true ∧ s.inLen = none ∧ deliverOf op s = completeUnread s) ∨
    (opIsRead op = false ∧ deliverOf op s = ackWrite s) := by
  unfold deliverOf deliverRead
  cases opIsRead op <;> cases s.inLen <;> simp

theorem deliverLatched_some {s : State} {op : Op} (h : s.cmdOp = some op) : deliverLatched s = deliverOf op s := by
  simp only [deliverLatched, h]

theorem deliverLatched_none {s : State} (h : s.cmdOp = none) : deliverLatched s = completeUnread s := by
  simp only [deliverLatched, h]

/-- `completeStep` looks at what it delivers in this state only. -/
theorem completeStep_congr {d d' : State → State} {s : State} (h : d s = d' s) : completeStep d s = completeStep d' s := by
  simp only [completeStep, h]

/-- All that `completeStep` can do: wait, raise `BusFail`, or deliver. -/
theorem completeStep_cases (d : State → State) (s : State) :
    ((portsNow s).busDone = false ∧ completeStep d s = .next s) ∨
    ((portsNow s).busDone = true ∧ (portsNow s).busFail = true ∧
      completeStep d s = .next (raiseBusFail (portsNow s).busErr s)) ∨
    ((portsNow s).busDone = true ∧ (portsNow s).busFail = false ∧ completeStep d s = .next (d s)) := by
  unfold completeStep
  cases (portsNow s).busDone <;> cases (portsNow s).busFail <;> simp

/-- All that `retireStep` can do: hold the response, or retire. -/
theorem retireStep_cases (s : State) :
    ((portsNow s).rspReady = false ∧ retireStep s = .next s) ∨
    ((portsNow s).rspReady = true ∧ retireStep s = .next (retire s)) := by
  unfold retireStep
  cases (portsNow s).rspReady <;> simp

theorem afterTick_eq_next {o : StepOutcome} {t : State} : afterTick o = .next t ↔ ∃ u, o = .next u ∧ t = tick u := by
  cases o <;> simp [afterTick, eq_comm]

end Sys2Proof.Machine
end

