-- ==== Sys2Proof/Safety.lean ====
section
/-!
DEFINITION. What counts as a good state and a good run of the framer: the invariant under which every element a step reads
holds a value (10_state.md R36, R41), the marker bit of every frame (70_reset_and_hazards.md R200), the commands a run
accepts (40_sequencer.md R118), and the launch premises of R208 as premises about a whole run. `SoleMaster` and `OneIssuer`
of R208 have no predicate: State holds one list of port levels, and the model has no move of a second master or issuer.
`ParamsFixed` is a fact of every step.
-/

namespace Sys2Proof.Machine

/-- The latches, the outbound frame, the inbound length and the last log record are those of the command `i` (what ACCEPT
wrote, R112). -/
abbrev State.Carries (s : State) (i : Instr) : Prop :=
  s.cmdOp = some (opOf i) ∧ s.cmdAddr = some (addrOf i) ∧ s.cmdVal = some (valOf i) ∧
    s.outLen = some (BitVec.ofNat 2 (outLength (opOf i))) ∧
    s.outBuf0 = (frame s.params i).out[0]? ∧ s.outBuf1 = (frame s.params i).out[1]? ∧
    s.inLen = some (inLength s.params (opOf i)) ∧ s.log.getLast? = some (frame s.params i)

/-- In XFER the response registers hold no value (R112). -/
abbrev State.Waiting (s : State) (i : Instr) : Prop :=
  s.Carries i ∧ s.inBuf = emptyBuffer s.params ∧ s.rspStatus = none ∧ s.rspErr = none

/-- In RESP the response registers hold one of the rows of 60_exceptions.md R167. After a success every cell below the
command's inbound length holds a byte (20_memory.md R54, 40_sequencer.md R114) and no cell past it holds a value; after a
failure no cell holds a value (10_state.md R28, R41). -/
abbrev State.Answered (s : State) (i : Instr) : Prop :=
  s.Carries i ∧
    ((s.rspStatus = some .ok ∧ s.rspErr = none ∧
        (cellBytes (s.inBuf.take (inLength s.params (opOf i)))).isSome = true ∧
        s.inBuf.drop (inLength s.params (opOf i)) =
          List.replicate (s.params.maxLen - inLength s.params (opOf i)) none) ∨
      (s.rspStatus = some .fail ∧
        s.rspErr.any (fun d => decide (nativeOf d < 2 ^ s.params.errW)) = true ∧
        s.inBuf = emptyBuffer s.params))

/-- What holds in each phase: in XFER and RESP there is a command in flight (R111), waiting or answered. -/
abbrev State.PhaseInv (s : State) : Prop :=
  (s.phase = .xfer → (inFlight s).any (fun i => decide (s.Waiting i)) = true) ∧
    (s.phase = .resp → (inFlight s).any (fun i => decide (s.Answered i)) = true)

/-- The invariant of the framer: legal parameters, `MAX_LEN` inbound cells (10_state.md R33), native errors of `ERR_W`
bits on the bus channel, and the phase's own condition. -/
abbrev State.Inv (s : State) : Prop :=
  s.params.wellFormed = true ∧ s.inBuf.length = s.params.maxLen ∧
    (∀ q ∈ s.inputs, q.busErr < 2 ^ s.params.errW) ∧ s.PhaseInv

/-- A record of the log is a read frame (one byte, marker 1, at least one inbound byte) or a write frame (two bytes,
marker 0, no inbound byte) (30_encoding.md R84, R89, R90). -/
def markerRight (r : BusRequest) : Bool :=
  match r.out with
  | [b] => markerOf b && decide (1 ≤ r.n)
  | [b, _] => !markerOf b && decide (r.n = 0)
  | _ => false

/-- The commands the next `k` steps from `s` accept, in order (R112, R118). -/
def acceptedIn : Nat → State → List Instr
  | 0, _ => []
  | k + 1, s =>
    match step s with
    | .next t => (if s.phase = .idle then (presented s).toList else []) ++ acceptedIn k t
    | .fault _ => []
    | .refused _ => []

/-- `ResetState` (R208): the state of R190, for legal parameters and native errors of `ERR_W` bits. -/
def State.ResetState (s : State) : Prop :=
  ∃ p env, p.wellFormed = true ∧ (∀ q ∈ env, q.busErr < 2 ^ p.errW) ∧ s = State.launch p env

/-- The bus answers in this stretch of inputs. -/
abbrev AnswerComes (env : List Ports) : Prop :=
  ∃ q ∈ env, q.busDone = true

/-- The issuer takes the response in this stretch of inputs. -/
abbrev TakingComes (env : List Ports) : Prop :=
  ∃ q ∈ env, q.rspReady = true

/-- `BusAnswers` (R208) of the run from `s`: every bus request is answered in the end. Wherever the run stands in XFER,
with a request on the bus channel, an answer is among the inputs still to come (R203). -/
def BusAnswers (s : State) : Prop :=
  ∀ (k : Nat) (t : State), Host.Core.run Sys2Proof.core k s = .next t → t.phase = .xfer → AnswerComes t.inputs

/-- `IssuerTakes` (R208) of the run from `s`: every response is taken in the end. Wherever the run stands in RESP, the
taking is among the inputs still to come (R196). -/
def IssuerTakes (s : State) : Prop :=
  ∀ (k : Nat) (t : State), Host.Core.run Sys2Proof.core k s = .next t → t.phase = .resp → TakingComes t.inputs

/-- The issuer runs the program `prog` from `s` (30_encoding.md R100, 70_reset_and_hazards.md R196): whenever the framer is
in IDLE, a word presented is that of the next command of the program, and one is presented in the end while commands
remain. -/
def Issues (prog : List Instr) (s : State) : Prop :=
  ∀ (k : Nat) (t : State), Host.Core.run Sys2Proof.core k s = .next t → t.phase = .idle →
    ((portsNow t).cmdValid = true →
      ∃ i, prog[(acceptedIn k s).length]? = some i ∧ decode (portsNow t).cmdWord = .cmd i) ∧
    ((acceptedIn k s).length < prog.length → ∃ q ∈ t.inputs, q.cmdValid = true)

/-- The end of a run of the commands `cmds` begun with the log `before` (70_reset_and_hazards.md R207): the last one has
retired and the log holds one more record per command, in program order. -/
abbrev State.RunOver (s : State) (before : List BusRequest) (cmds : List Instr) : Prop :=
  s.phase = .idle ∧ s.log = before ++ cmds.map (frame s.params)

end Sys2Proof.Machine
end

