-- ==== Sys2Proof/Laws/Invariant.lean ====
section
/-!
SUPPORT. What the invariant of `Safety` says in each phase.
-/

namespace Sys2Proof.Machine

theorem any_decide {o : Option Instr} {P : Instr → Prop} [DecidablePred P] :
    o.any (fun i => decide (P i)) = true ↔ ∃ i, o = some i ∧ P i := by
  cases o <;> simp

/-- In a good state in XFER there is a command in flight, and it waits. -/
theorem inv_xfer {s : State} (h : s.Inv) (hp : s.phase = .xfer) : ∃ i, inFlight s = some i ∧ s.Waiting i :=
  any_decide.1 (h.2.2.2.1 hp)

/-- In a good state in RESP there is a command in flight, and it is answered. -/
theorem inv_resp {s : State} (h : s.Inv) (hp : s.phase = .resp) : ∃ i, inFlight s = some i ∧ s.Answered i :=
  any_decide.1 (h.2.2.2.2 hp)

end Sys2Proof.Machine
end

