-- ==== Sys2Proof/Laws/Step.lean ====
section
/-!
SUPPORT. What `exec` and `step` can do, said once: every later proof about a step cites these.
-/

namespace Sys2Proof.Machine

/-- Every command is the shared three-phase step with its own frame. -/
theorem exec_eq (i : Instr) (s : State) :
    exec i s = commandStep (opOf i) (addrOf i) (valOf i) (frame s.params i) s := by
  cases i <;> rfl

theorem exec_idle {i : Instr} {s : State} (h : s.phase = .idle) :
    exec i s = .next (accept (opOf i) (addrOf i) (valOf i) (frame s.params i) s) := by
  rw [exec_eq, commandStep, h]

theorem exec_xfer {i : Instr} {s : State} (h : s.phase = .xfer) : exec i s = completeStep (deliverOf (opOf i)) s := by
  rw [exec_eq, commandStep, h]

theorem exec_resp {i : Instr} {s : State} (h : s.phase = .resp) : exec i s = retireStep s := by
  rw [exec_eq, commandStep, h]

/-- All that command `i` can do in XFER: wait, raise `BusFail`, capture, acknowledge, or deliver nothing for want of an
inbound length. -/
theorem exec_xfer_cases {i : Instr} {s : State} (h : s.phase = .xfer) :
    ((portsNow s).busDone = false ∧ exec i s = .next s) ∨
    ((portsNow s).busDone = true ∧ (portsNow s).busFail = true ∧
      exec i s = .next (raiseBusFail (portsNow s).busErr s)) ∨
    ((portsNow s).busDone = true ∧ (portsNow s).busFail = false ∧ opIsRead (opOf i) = true ∧
      ∃ n, s.inLen = some n ∧ exec i s = .next (captureRead n s)) ∨
    ((portsNow s).busDone = true ∧ (portsNow s).busFail = false ∧ opIsRead (opOf i) = true ∧ s.inLen = none ∧
      exec i s = .next (completeUnread s)) ∨
    ((portsNow s).busDone = true ∧ (portsNow s).busFail = false ∧ opIsRead (opOf i) = false ∧
      exec i s = .next (ackWrite s)) := by
  rw [exec_xfer h]
  rcases completeStep_cases (deliverOf (opOf i)) s with ⟨hd, he⟩ | ⟨hd, hf, he⟩ | ⟨hd, hf, he⟩
  · exact .inl ⟨hd, he⟩
  · exact .inr (.inl ⟨hd, hf, he⟩)
  · rw [he]
    rcases deliverOf_cases (opOf i) s with ⟨n, hr, hn, e⟩ | ⟨hr, hn, e⟩ | ⟨hr, e⟩ <;> rw [e]
    · exact .inr (.inr (.inl ⟨hd, hf, hr, n, hn, rfl⟩))
    · exact .inr (.inr (.inr (.inl ⟨hd, hf, hr, hn, rfl⟩)))
    · exact .inr (.inr (.inr (.inr ⟨hd, hf, hr, rfl⟩)))

/-- The inversion of `step`: the rows of the phase table (40_sequencer.md R117), and COMPLETE without an element it reads
(log entry 2). -/
theorem step_cases {s t : State} (h : step s = .next t) :
    (s.phase = .idle ∧ presented s = none ∧ t = tick s) ∨
    (∃ i, s.phase = .idle ∧ presented s = some i ∧
      t = tick (accept (opOf i) (addrOf i) (valOf i) (frame s.params i) s)) ∨
    (s.phase = .xfer ∧ (portsNow s).busDone = false ∧ t = tick s) ∨
    (s.phase = .xfer ∧ (portsNow s).busDone = true ∧ (portsNow s).busFail = true ∧
      t = tick (raiseBusFail (portsNow s).busErr s)) ∨
    (∃ op n, s.phase = .xfer ∧ s.cmdOp = some op ∧ (portsNow s).busDone = true ∧ (portsNow s).busFail = false ∧
      opIsRead op = true ∧ s.inLen = some n ∧ t = tick (captureRead n s)) ∨
    (∃ op, s.phase = .xfer ∧ s.cmdOp = some op ∧ (portsNow s).busDone = true ∧ (portsNow s).busFail = false ∧
      opIsRead op = false ∧ t = tick (ackWrite s)) ∨
    (s.phase = .xfer ∧ (portsNow s).busDone = true ∧ (portsNow s).busFail = false ∧
      (∀ op, s.cmdOp = some op → opIsRead op = true ∧ s.inLen = none) ∧ t = tick (completeUnread s)) ∨
    (s.phase = .resp ∧ (portsNow s).rspReady = false ∧ t = tick s) ∨
    (s.phase = .resp ∧ (portsNow s).rspReady = true ∧ t = tick (retire s)) := by
  obtain ⟨u, hu, rfl⟩ := afterTick_eq_next.1 h
  unfold sequencerStep at hu
  split at hu
  · rename_i hp
    split at hu
    · rename_i i hi
      rw [exec_idle hp] at hu
      cases hu
      exact .inr (.inl ⟨i, hp, hi, rfl⟩)
    · rename_i hi
      cases hu
      exact .inl ⟨hp, hi, rfl⟩
  · rename_i hp
    refine .inr (.inr ?_)
    rcases completeStep_cases deliverLatched s with ⟨hd, he⟩ | ⟨hd, hf, he⟩ | ⟨hd, hf, he⟩ <;> rw [he] at hu <;> cases hu
    · exact .inl ⟨hp, hd, rfl⟩
    · exact .inr (.inl ⟨hp, hd, hf, rfl⟩)
    · refine .inr (.inr ?_)
      rcases ho : s.cmdOp with _ | op
      · rw [deliverLatched_none ho]
        exact .inr (.inr (.inl ⟨hp, hd, hf, by simp, rfl⟩))
      · rw [deliverLatched_some ho]
        rcases deliverOf_cases op s with ⟨n, hr, hn, e⟩ | ⟨hr, hn, e⟩ | ⟨hr, e⟩ <;> rw [e]
        · exact .inl ⟨op, n, hp, rfl, hd, hf, hr, hn, rfl⟩
        · exact .inr (.inr (.inl ⟨hp, hd, hf, fun o h => by cases h; exact ⟨hr, hn⟩, rfl⟩))
        · exact .inr (.inl ⟨op, hp, rfl, hd, hf, hr, rfl⟩)
  · rename_i hp
    rcases retireStep_cases s with ⟨hr, he⟩ | ⟨hr, he⟩ <;> rw [he] at hu <;> cases hu
    · exact .inr (.inr (.inr (.inr (.inr (.inr (.inr (.inl ⟨hp, hr, rfl⟩)))))))
    · exact .inr (.inr (.inr (.inr (.inr (.inr (.inr (.inr ⟨hp, hr, rfl⟩)))))))

/-! `step`, phase by phase. -/

theorem step_idle_some {s : State} {i : Instr} (hp : s.phase = .idle) (hi : presented s = some i) :
    step s = .next (tick (accept (opOf i) (addrOf i) (valOf i) (frame s.params i) s)) := by
  simp only [step, sequencerStep, hp, hi, exec_idle hp, afterTick]

theorem step_idle_none {s : State} (hp : s.phase = .idle) (hi : presented s = none) : step s = .next (tick s) := by
  simp only [step, sequencerStep, hp, hi, afterTick]

theorem step_xfer {s : State} (hp : s.phase = .xfer) : step s = afterTick (completeStep deliverLatched s) := by
  simp only [step, sequencerStep, hp]

/-- With `cmd_op` latched, a step in XFER is `exec` of any command of that `op`. -/
theorem step_xfer_exec {s : State} {i : Instr} (hp : s.phase = .xfer) (ho : s.cmdOp = some (opOf i)) :
    step s = afterTick (exec i s) := by
  rw [step_xfer hp, exec_xfer hp, completeStep_congr (deliverLatched_some ho)]

theorem step_resp {s : State} (hp : s.phase = .resp) : step s = afterTick (retireStep s) := by
  simp only [step, sequencerStep, hp]

theorem run_succ {k : Nat} {s t : State} (h : step s = .next t) :
    Host.Core.run Sys2Proof.core (k + 1) s = Host.Core.run Sys2Proof.core k t := by
  have h' : Sys2Proof.core.step s = .next t := h
  simp only [Host.Core.run, h']

/-- A run of `k + 1` steps is a step and a run of `k`. -/
theorem run_succ_inv {k : Nat} {s t : State} (h : Host.Core.run Sys2Proof.core (k + 1) s = .next t) :
    ∃ u, step s = .next u ∧ Host.Core.run Sys2Proof.core k u = .next t := by
  rcases hs : step s with u | r | r
  · rw [run_succ hs] at h
    exact ⟨u, rfl, h⟩
  all_goals
    have hs' : Sys2Proof.core.step s = _ := hs
    simp only [Host.Core.run, hs'] at h
    cases h

/-- A run of `a + b` steps is a run of `a` and a run of `b`. -/
theorem run_add {a b : Nat} {s t : State} (h : Host.Core.run Sys2Proof.core a s = .next t) :
    Host.Core.run Sys2Proof.core (a + b) s = Host.Core.run Sys2Proof.core b t := by
  induction a generalizing s with
  | zero =>
    cases h
    simp
  | succ a ih =>
    obtain ⟨u, hu, hk⟩ := run_succ_inv h
    rw [Nat.add_right_comm, run_succ hu, ih hk]

/-- In IDLE with no input left nothing happens any more. -/
theorem quiet_end {k : Nat} {s t : State} (hp : s.phase = .idle) (hi : s.inputs = [])
    (h : Host.Core.run Sys2Proof.core k s = .next t) : s = t ∧ acceptedIn k s = [] := by
  have hn : presented s = none := by simp [presented, portsNow_nil hi, quietPorts]
  have hs : step s = .next s := by
    rw [step_idle_none hp hn]
    simp [tick, hi]
    rw [← hi]
  induction k with
  | zero =>
    cases h
    exact ⟨rfl, rfl⟩
  | succ k ih =>
    rw [run_succ hs] at h
    exact ⟨(ih h).1, by simp [acceptedIn, hs, hp, hn, (ih h).2]⟩

/-- A fact every step keeps holds after every run (the induction, once). -/
theorem run_keeps {P : State → Prop} (hstep : ∀ s t, P s → step s = .next t → P t) :
    ∀ (k : Nat) (s t : State), P s → Host.Core.run Sys2Proof.core k s = .next t → P t
  | 0, s, t, hs, h => by
    cases h
    exact hs
  | k + 1, s, t, hs, h => by
    obtain ⟨u, hu, hk⟩ := run_succ_inv h
    exact run_keeps hstep k u t (hstep s u hs hu) hk

end Sys2Proof.Machine
end

