-- ==== Sys2Proof/Machine/Assembler.lean ====
section
/-!
DEFINITION. The assembler notation (30_encoding.md R100 to R102): lines, their canonical words, the contract's operation
names as pseudo-instructions (R80, R101), and a program with its bus script as inputs on the ports.
-/

namespace Sys2Proof.Machine

/-- A line of a program (R100). -/
inductive AsmLine where
  | rdreg (addr : Byte)
  | rdmeas (addr : Byte)
  | rdcalpt (addr : Byte)
  | rdcalh (addr : Byte)
  | wrreg (addr val : Byte)
  deriving DecidableEq, Repr

/-- The command a line stands for: a read is written with `val` = 0x00 and `addr` is kept as written (R102). -/
def assembleLine : AsmLine → Instr
  | .rdreg addr => .rdreg addr 0x00
  | .rdmeas addr => .rdmeas addr 0x00
  | .rdcalpt addr => .rdcalpt addr 0x00
  | .rdcalh addr => .rdcalh addr 0x00
  | .wrreg addr val => .wrreg addr val

/-- The canonical word of a line (R102). -/
def canonicalWord (l : AsmLine) : CmdWord :=
  encode (assembleLine l)

/-- The three length classes of `read_block` (R80, 90_conflicts.md C2). -/
inductive LengthClass where
  | measurement
  | pressureTemperatureCalibration
  | humidityCalibration
  deriving DecidableEq, Repr

/-- `read_register(address)` (R101). -/
def readRegister (address : Byte) : AsmLine :=
  .rdreg address

/-- `read_block(address, length_class)` (R101). -/
def readBlock (address : Byte) : LengthClass → AsmLine
  | .measurement => .rdmeas address
  | .pressureTemperatureCalibration => .rdcalpt address
  | .humidityCalibration => .rdcalh address

/-- `write_register(address, value)` (R101). -/
def writeRegister (address value : Byte) : AsmLine :=
  .wrreg address value

/-- The issuer presents the word `w`. -/
def presentPorts (w : CmdWord) : Ports :=
  { quietPorts with cmdValid := true, cmdWord := w }

/-- The bus primitive gives the answer `a`. -/
def answerPorts {n : Nat} : BusAnswer n → Ports
  | .ok bytes _ => { quietPorts with busDone := true, busIn := bytes }
  | .fail e => { quietPorts with busDone := true, busFail := true, busErr := e }

/-- The issuer takes the response. -/
def takePorts : Ports :=
  { quietPorts with rspReady := true }

/-- A line of a program with its line of the bus script: an answer of the length the line asks for (R100,
20_memory.md R54). -/
structure ScriptedLine (p : Params) where
  line : AsmLine
  answer : BusAnswer (inLength p (opOf (assembleLine line)))
  deriving DecidableEq, Repr

/-- The inputs of a program run against a bus script (R100): the issuer presents each line after taking the response to
the one before, and the bus gives that line's answer. -/
def programInputs {p : Params} : List (ScriptedLine p) → List Ports
  | [] => []
  | c :: rest => presentPorts (canonicalWord c.line) :: answerPorts c.answer :: takePorts :: programInputs rest

end Sys2Proof.Machine
end

