-- ==== Sys2Proof/Machine/OneStep.lean ====
section
/-!
DEFINITION. The one-step form of a command (40_sequencer.md R123): the blocking call the source describes. It has no
state beside the log and cannot express a bus that never answers (R120); the machine's step is the three-step form.
-/

namespace Sys2Proof.Machine

/-- The response to command `i` when the bus answers `a` (R123, 41_read.md R130, 42_write.md R150). -/
def answerResponse (i : Instr) {n : Nat} : BusAnswer n → Response
  | .fail e => .err (translateError e)
  | .ok bytes _ => if opIsRead (opOf i) then .okRead bytes else .okWrite

/-- `Exec(c, a)` (R123): the log with the command's one record, and the response, on an answer of the length the
command asks for. -/
def execOneStep (p : Params) (i : Instr) (a : BusAnswer (inLength p (opOf i))) (log : List BusRequest) :
    List BusRequest × Response :=
  (log ++ [frame p i], answerResponse i a)

end Sys2Proof.Machine
end

