-- ==== Sys2Proof/Certificates/Slice0/Obligations.lean ====
section
/-!
DEFINITION. The statements for the provers, in the order of the spec's files. Each docstring names the rule it
formalises. All are about every state (or every parameter and every input), none about a program.
-/

section

open Sys2Proof Sys2Proof.Machine

/-! Encodings (30_encoding.md). -/

/-- R81, R82: the word of a command decodes to the command, all 256 values of both fields, for all five commands. -/
def Obligations.DecodeInvertsEncode : Prop :=
  ∀ i : Instr, i.wellFormed = true ∧ decode (encode i) = .cmd i

/-- R103: the decoder is total on 19-bit words, takes the three fields from their places when `op` is at most 0b100,
refuses otherwise, and re-encoding gives back the word. -/
def Obligations.DecodeIsTotalAndDropsNoBit : Prop :=
  ∀ w : CmdWord,
    ((w.extractLsb' 16 3).toNat ≤ 4 →
      ∃ i, decode w = .cmd i ∧ opCode (opOf i) = w.extractLsb' 16 3 ∧ addrOf i = w.extractLsb' 8 8 ∧
        valOf i = w.extractLsb' 0 8 ∧ encode i = w) ∧
    (4 < (w.extractLsb' 16 3).toNat → decode w = .reservedOp (w.extractLsb' 16 3))

/-- 95_test_vectors.md V3, S5, S6: words written out from R81 and R82 decode to what they stand for. -/
def Obligations.SampleWordsDecode : Prop :=
  decode 0x00000 = .cmd (.rdreg 0x00 0x00) ∧ decode 0x0D000 = .cmd (.rdreg 0xD0 0x00) ∧
    decode 0x0D0FF = .cmd (.rdreg 0xD0 0xFF) ∧ decode 0x1F700 = .cmd (.rdmeas 0xF7 0x00) ∧
    decode 0x28800 = .cmd (.rdcalpt 0x88 0x00) ∧ decode 0x3E15A = .cmd (.rdcalh 0xE1 0x5A) ∧
    decode 0x4F427 = .cmd (.wrreg 0xF4 0x27) ∧ decode 0x4FFFF = .cmd (.wrreg 0xFF 0xFF) ∧
    decode 0x50000 = .reservedOp 5 ∧ decode 0x6ABCD = .reservedOp 6 ∧ decode 0x7FFFF = .reservedOp 7

/-- R102, R101: the assembler writes a read with `val` = 0x00 and keeps `addr` as written. -/
def Obligations.CanonicalWordsOfLines : Prop :=
  (∀ a v : Byte,
    fieldsOf (canonicalWord (readRegister a)) = ⟨0b000, a, 0x00⟩ ∧
    fieldsOf (canonicalWord (readBlock a .measurement)) = ⟨0b001, a, 0x00⟩ ∧
    fieldsOf (canonicalWord (readBlock a .pressureTemperatureCalibration)) = ⟨0b010, a, 0x00⟩ ∧
    fieldsOf (canonicalWord (readBlock a .humidityCalibration)) = ⟨0b011, a, 0x00⟩ ∧
    fieldsOf (canonicalWord (writeRegister a v)) = ⟨0b100, a, v⟩) ∧
  canonicalWord (readRegister 0xD0) = 0x0D000 ∧ canonicalWord (writeRegister 0xF4 0x27) = 0x4F427

/-- R85: accepting any read command puts `addr | 0x80` in the address byte: bit 7 is 1 and bits 6:0 are `addr[6:0]`. -/
def Obligations.ReadAddressByteIsMarked : Prop :=
  ∀ (i : Instr) (s : State), s.phase = .idle → opIsRead (opOf i) = true →
    ∃ t b, exec i s = .next t ∧ t.outBuf0 = some b ∧ b = addrOf i ||| 0x80 ∧ b.getLsbD 7 = true ∧
      ∀ k < 7, b.getLsbD k = (addrOf i).getLsbD k

/-- R86: accepting WRREG puts `addr & 0x7F` in the address byte (bit 7 is 0, bits 6:0 are `addr[6:0]`) and the value in
the second byte, unchanged. -/
def Obligations.WriteAddressByteIsUnmarked : Prop :=
  ∀ (addr val : Byte) (s : State), s.phase = .idle →
    ∃ t b, exec (.wrreg addr val) s = .next t ∧ t.outBuf0 = some b ∧ b = addr &&& 0x7F ∧ b.getLsbD 7 = false ∧
      (∀ k < 7, b.getLsbD k = addr.getLsbD k) ∧ t.outBuf1 = some val

/-- R88, R84, R53: the address encoder is idempotent, the two encoders undo each other, the read and write address bytes of
one address differ in bit 7 and in nothing else, and both select the register the address names. -/
def Obligations.EncoderLaws : Prop :=
  ∀ a : Byte,
    readAddrByte (readAddrByte a) = readAddrByte a ∧ writeAddrByte (writeAddrByte a) = writeAddrByte a ∧
    writeAddrByte (readAddrByte a) = writeAddrByte a ∧ readAddrByte (writeAddrByte a) = readAddrByte a ∧
    readAddrByte a ^^^ writeAddrByte a = 0x80 ∧ markerOf (readAddrByte a) = true ∧ markerOf (writeAddrByte a) = false ∧
    selectOf (readAddrByte a) = selectOf a ∧ selectOf (writeAddrByte a) = selectOf a

/-- R87: every address is accepted, and two addresses that differ in bit 7 only leave, for the same command, states that
differ in nothing but the latched address: the same frame, the same log. -/
def Obligations.AddressBitSevenNeverMatters : Prop :=
  ∀ (i : Instr) (s : State), s.phase = .idle →
    ∃ t, exec i s = .next t ∧
      exec (instrOf (opOf i) (addrOf i ^^^ 0x80) (valOf i)) s =
        .next { t with cmdAddr := some (addrOf i ^^^ 0x80) } ∧
      ∃ b, t.outBuf0 = some b ∧ (b.getLsbD 7 = true ↔ opIsRead (opOf i) = true) ∧
        b = (if opIsRead (opOf i) = true then addrOf i ||| 0x80 else addrOf i &&& 0x7F)

/-- R98: `val` is ignored by the four reads: with another `val` a read does the same in every phase, but for the latch
`cmd_val`, which ACCEPT writes. -/
def Obligations.ReadsIgnoreVal : Prop :=
  ∀ (op : Op) (addr v v' : Byte) (s : State), opIsRead op = true →
    (s.phase = .idle → ∃ t, exec (instrOf op addr v) s = .next t ∧ t.cmdVal = some v ∧
      exec (instrOf op addr v') s = .next { t with cmdVal := some v' }) ∧
    (s.phase ≠ .idle → exec (instrOf op addr v) s = exec (instrOf op addr v') s)

/-- R96: the error word `{dev_kind, xport_kind, native}` of a native error of `ERR_W` bits. -/
def Obligations.ErrorWordFields : Prop :=
  ∀ (errW : Nat) (e : Nat), e < 2 ^ errW →
    (errorWord errW (translateError e)).extractLsb' (errW + 1) 2 = 0b01#2 ∧
    (errorWord errW (translateError e)).extractLsb' errW 1 = 0b1#1 ∧
    ((errorWord errW (translateError e)).extractLsb' 0 errW).toNat = e ∧
    (errorWord errW (translateError e)).toNat = 3 * 2 ^ errW + e

/-- R165: nothing is lost: whichever command fails and whatever the native error, the error the response carries gives it
back; so does its word of `ERR_W` + 3 bits, in its low `ERR_W` bits; and two native errors never share an error. -/
def Obligations.NoErrorInformationIsLost : Prop :=
  (∀ (i : Instr) (s : State), s.phase = .xfer → (portsNow s).busDone = true → (portsNow s).busFail = true →
    ∃ t d, exec i s = .next t ∧ t.rspErr = some d ∧ nativeOf d = (portsNow s).busErr) ∧
  (∀ e e' : Nat, translateError e = translateError e' → e = e') ∧
  (∀ errW e e' : Nat, e < 2 ^ errW → e' < 2 ^ errW →
    ((errorWord errW (translateError e)).extractLsb' 0 errW).toNat = e ∧
    (errorWord errW (translateError e) = errorWord errW (translateError e') → e = e'))

/-! The frame function and the steps (40_sequencer.md). -/

/-- R110, R91, R92, R93: the request each command puts on the bus channel, and its one record in the log. -/
def Obligations.AcceptIssuesTheFrame : Prop :=
  ∀ (s : State) (addr val : Byte), s.phase = .idle →
    (∃ t, exec (.rdreg addr val) s = .next t ∧ busRequest t = some ⟨[addr ||| 0x80], 1⟩ ∧
      t.log = s.log ++ [⟨[addr ||| 0x80], 1⟩]) ∧
    (∃ t, exec (.rdmeas addr val) s = .next t ∧ busRequest t = some ⟨[addr ||| 0x80], s.params.lenMeas⟩ ∧
      t.log = s.log ++ [⟨[addr ||| 0x80], s.params.lenMeas⟩]) ∧
    (∃ t, exec (.rdcalpt addr val) s = .next t ∧ busRequest t = some ⟨[addr ||| 0x80], s.params.lenCalpt⟩ ∧
      t.log = s.log ++ [⟨[addr ||| 0x80], s.params.lenCalpt⟩]) ∧
    (∃ t, exec (.rdcalh addr val) s = .next t ∧ busRequest t = some ⟨[addr ||| 0x80], s.params.lenCalh⟩ ∧
      t.log = s.log ++ [⟨[addr ||| 0x80], s.params.lenCalh⟩]) ∧
    (∃ t, exec (.wrreg addr val) s = .next t ∧ busRequest t = some ⟨[addr &&& 0x7F, val], 0⟩ ∧
      t.log = s.log ++ [⟨[addr &&& 0x7F, val], 0⟩])

/-- R112: what ACCEPT writes, for every command, and when it is taken. Every element that is not listed keeps its
value. The third clause is R117's row of IDLE without a step: with no command presented, or a reserved `op`, a step changes
nothing but the inputs. That "no step" on a reserved `op` (R97, D5) is a step that changes nothing, after which the run goes
on, is the model's reading (log entry 4). -/
def Obligations.AcceptEffect : Prop :=
  (∀ (i : Instr) (s : State), s.phase = .idle →
    exec i s = .next { s with
      phase := .xfer
      cmdOp := some (opOf i)
      cmdAddr := some (addrOf i)
      cmdVal := some (valOf i)
      outLen := some (BitVec.ofNat 2 (frame s.params i).out.length)
      outBuf0 := (frame s.params i).out[0]?
      outBuf1 := (frame s.params i).out[1]?
      inLen := some (frame s.params i).n
      inBuf := List.replicate s.params.maxLen none
      rspStatus := none
      rspErr := none
      log := s.log ++ [frame s.params i] }) ∧
  (∀ (s : State) (i : Instr), s.phase = .idle → (portsNow s).cmdValid = true →
    decode (portsNow s).cmdWord = .cmd i → step s = afterTick (exec i s)) ∧
  (∀ s : State, s.phase = .idle →
    ((portsNow s).cmdValid = true → ∀ i, decode (portsNow s).cmdWord ≠ .cmd i) → step s = .next (tick s))

/-- R113: while `phase = XFER` a command in flight never changes its request, never issues a second one, and does nothing
at all until the bus answers; `cmd_ready` is 0. -/
def Obligations.RequestIsHeldInXfer : Prop :=
  ∀ (i : Instr) (s : State), s.phase = .xfer →
    (outputs s).cmdReady = false ∧ ((portsNow s).busDone = false → exec i s = .next s) ∧
    ∀ t, exec i s = .next t →
      t.outLen = s.outLen ∧ t.outBuf0 = s.outBuf0 ∧ t.outBuf1 = s.outBuf1 ∧ t.inLen = s.inLen ∧ t.log = s.log ∧
      (t.phase = .xfer → busRequest t = busRequest s)

/-- R114: COMPLETE after a successful transfer, for every command in flight: the bus's answer is exactly `in_len` bytes, a
read's cells below `in_len` are those bytes in their positions, a write's buffer is unchanged, the status is OK, the error
word holds no value. -/
def Obligations.CompleteAfterSuccess : Prop :=
  ∀ (i : Instr) (s : State) (n : Nat), s.phase = .xfer → s.cmdOp = some (opOf i) → n = inLength s.params (opOf i) →
    s.inLen = some n → s.inBuf.length = s.params.maxLen → (portsNow s).busDone = true → (portsNow s).busFail = false →
    ∃ t bytes h, exec i s = .next t ∧ answerOn n (portsNow s) = some (.ok bytes h) ∧
      (∀ k < n, k < (portsNow s).busIn.length → bytes[k]? = (portsNow s).busIn[k]?) ∧
      t = { s with phase := .resp, rspStatus := some .ok, rspErr := none, inBuf := t.inBuf } ∧
      (opIsRead (opOf i) = true →
        (∀ k < n, t.inBuf[k]? = some bytes[k]?) ∧ (∀ k ≥ n, t.inBuf[k]? = s.inBuf[k]?) ∧
        response t = some (.okRead bytes)) ∧
      (opIsRead (opOf i) = false → t.inBuf = s.inBuf ∧ response t = some .okWrite)

/-- R115, R166: COMPLETE after a failed transfer raises `BusFail(e)`, the same for all five commands: FAIL, the doubly
wrapped native error, no inbound cell with a value, nothing else written. -/
def Obligations.CompleteAfterFailure : Prop :=
  (∀ (i : Instr) (s : State), s.phase = .xfer → (portsNow s).busDone = true → (portsNow s).busFail = true →
    ∃ t, exec i s = .next t ∧
      t = { s with
        phase := .resp
        rspStatus := some .fail
        rspErr := some (.transport (.bus (portsNow s).busErr))
        inBuf := List.replicate s.params.maxLen none } ∧
      response t = some (.err (.transport (.bus (portsNow s).busErr)))) ∧
  (∀ (errW : Nat) (e : Nat),
    errorWord errW (.transport (.bus e)) = 0b01#2 ++ 0b1#1 ++ BitVec.ofNat errW e) ∧
  errorWord 8 (.transport (.bus 0xA5)) = 0x3A5#11

/-- R116: RETIRE writes `phase <- IDLE` and nothing else, whatever the command was; it waits until the response is
taken. -/
def Obligations.RetireEffect : Prop :=
  ∀ s : State, s.phase = .resp →
    ((portsNow s).rspReady = true →
      step s = .next { s with phase := .idle, inputs := s.inputs.tail } ∧
      ∀ i, exec i s = .next { s with phase := .idle }) ∧
    ((portsNow s).rspReady = false →
      step s = .next { s with inputs := s.inputs.tail } ∧ ∀ i, exec i s = .next s)

/-- R117: the rows of the phase table and no others. A row whose step is "none" changes nothing. -/
def Obligations.PhaseTable : Prop :=
  ∀ s t : State, step s = .next t →
    (s.phase = .idle →
      ((∃ i, (portsNow s).cmdValid = true ∧ decode (portsNow s).cmdWord = .cmd i) → t.phase = .xfer) ∧
      ((¬ ∃ i, (portsNow s).cmdValid = true ∧ decode (portsNow s).cmdWord = .cmd i) → t = tick s)) ∧
    (s.phase = .xfer →
      ((portsNow s).busDone = true → t.phase = .resp) ∧ ((portsNow s).busDone = false → t = tick s)) ∧
    (s.phase = .resp →
      ((portsNow s).rspReady = true → t.phase = .idle) ∧ ((portsNow s).rspReady = false → t = tick s))

/-- R118: after any run the log has grown by exactly one record per command accepted in it, in order, each the `Frame` of
its command, whatever the bus answered. -/
def Obligations.OneRecordPerAcceptedCommand : Prop :=
  (∀ (k : Nat) (s t : State), Host.Core.run Sys2Proof.core k s = .next t →
    t.log = s.log ++ (acceptedIn k s).map (frame s.params)) ∧
  (∀ (p : Params) (env : List Ports) (k : Nat) (t : State),
    Host.Core.run Sys2Proof.core k (State.launch p env) = .next t →
      t.log.length = (acceptedIn k (State.launch p env)).length ∧
      ∀ (j : Nat) (i : Instr), (acceptedIn k (State.launch p env))[j]? = some i → t.log[j]? = some (frame p i))

/-- R54, R55: what the bus can answer and what comes of it. On every level of the ports the answer to a request for `n` bytes
is none, `Fail` with `bus_err`, or `Ok` of exactly `n` bytes, in the order of `bus_in`; every answer of `n` bytes and every
failure is one some levels give; and to whichever answer a good state in XFER has a step, into RESP, with the response of
the one-step form and no second record. -/
def Obligations.EveryBusAnswerIsDelivered : Prop :=
  (∀ (n : Nat) (q : Ports),
    (q.busDone = false → answerOn n q = none) ∧
    (q.busDone = true → q.busFail = true → answerOn n q = some (.fail q.busErr)) ∧
    (q.busDone = true → q.busFail = false → ∃ (bytes : List Byte) (h : bytes.length = n),
      answerOn n q = some (.ok bytes h) ∧ ∀ k < n, k < q.busIn.length → bytes[k]? = q.busIn[k]?)) ∧
  (∀ (n : Nat) (a : BusAnswer n), answerOn n (answerPorts a) = some a) ∧
  (∀ (s : State) (i : Instr) (a : BusAnswer (inLength s.params (opOf i))), s.Inv → s.phase = .xfer →
    inFlight s = some i → answerOn (inLength s.params (opOf i)) (portsNow s) = some a →
    ∃ t, step s = .next t ∧ t.phase = .resp ∧ response t = some (answerResponse i a) ∧ t.log = s.log)

/-- R120: if the bus does not answer, the framer stays in XFER for as long as the silence lasts: the request stands,
`cmd_ready` and `rsp_valid` stay 0, and no step but waiting is taken. -/
def Obligations.SilentBusHangs : Prop :=
  ∀ (k : Nat) (s : State), s.phase = .xfer → (∀ q ∈ s.inputs.take k, q.busDone = false) →
    ∃ t : State, Host.Core.run Sys2Proof.core k s = .next t ∧ t = { s with inputs := s.inputs.drop k } ∧
      (outputs t).cmdReady = false ∧ (outputs t).rspValid = false ∧ (outputs t).busReqValid = true

/-- R121: in XFER and RESP the word presented on the command channel has no effect at all on the step, and a command
still presented after RETIRE is accepted then. -/
def Obligations.EarlyCommandWaits : Prop :=
  (∀ (s : State) (q : Ports) (rest : List Ports) (v : Bool) (w : CmdWord), s.phase ≠ .idle →
    (outputs s).cmdReady = false ∧
    step { s with inputs := { q with cmdValid := v, cmdWord := w } :: rest } =
      step { s with inputs := q :: rest }) ∧
  (∀ (s : State) (q q' : Ports) (rest : List Ports) (i : Instr), s.phase = .resp → s.inputs = q :: q' :: rest →
    q.rspReady = true → q'.cmdValid = true → decode q'.cmdWord = .cmd i →
    ∃ t : State, Host.Core.run Sys2Proof.core 2 s = .next t ∧ t.phase = .xfer ∧ inFlight t = some i ∧
      t.log = s.log ++ [frame s.params i] ∧ t.inputs = rest)

/-- R97 (30_encoding.md section 6): a word with `op` 0b101, 0b110 or 0b111 is refused for as long as it is presented:
nothing changes but the inputs that have passed, so there is no bus request, no record and no response. That "no step" is
a step that changes nothing, not the end of the run, is the model's reading (log entry 4). -/
def Obligations.ReservedOpIsRefused : Prop :=
  ∀ (k : Nat) (s : State) (q : Ports) (rest : List Ports), s.phase = .idle → 5 ≤ (fieldsOf q.cmdWord).op.toNat →
    s.inputs = List.replicate k q ++ rest →
    decode q.cmdWord = .reservedOp (fieldsOf q.cmdWord).op ∧
    Host.Core.run Sys2Proof.core k s = .next { s with inputs := rest }

/-- R122, R36: two framers with the same parameters, both between commands, whatever their registers and logs hold from
the past, and given the same inputs, run alike for ever: the same phases, while a command is in flight the same outputs
and the same response, and the same records added to the log. The inputs are equal as whole lists, waits included; that the
response depends on the command's word and the bus's one answer alone is ThreeStepsAgreeWithOneStep. -/
def Obligations.PastCommandsLeaveNoTrace : Prop :=
  ∀ (k : Nat) (s s' t : State), s.phase = .idle → s'.phase = .idle → s'.params = s.params → s'.inputs = s.inputs →
    Host.Core.run Sys2Proof.core k s = .next t →
    ∃ (t' : State) (added : List BusRequest), Host.Core.run Sys2Proof.core k s' = .next t' ∧ t'.phase = t.phase ∧ t'.inputs = t.inputs ∧
      t.log = s.log ++ added ∧ t'.log = s'.log ++ added ∧
      (t.phase ≠ .idle → outputs t' = outputs t ∧ response t' = response t ∧ inFlight t' = inFlight t)

/-- R123: a command run by ACCEPT, COMPLETE and RETIRE from IDLE, with any waits before each, ends in IDLE with the log
and the response of the one-step form on the bus's answer. Two things are the model's choice: the waits before ACCEPT may
present a reserved `op`, which the run passes (log entry 4), and the response is read off the registers after RETIRE, which
leaves them as they are (log entry 9). -/
def Obligations.ThreeStepsAgreeWithOneStep : Prop :=
  ∀ (s : State) (i : Instr) (a : BusAnswer (inLength s.params (opOf i))) (w0 w1 w2 rest : List Ports)
    (p0 p1 p2 : Ports), s.phase = .idle →
    (∀ q ∈ w0, q.cmdValid = false ∨ ∀ j, decode q.cmdWord ≠ .cmd j) →
    p0.cmdValid = true → decode p0.cmdWord = .cmd i →
    (∀ q ∈ w1, q.busDone = false) →
    answerOn (inLength s.params (opOf i)) p1 = some a →
    (∀ q ∈ w2, q.rspReady = false) → p2.rspReady = true →
    s.inputs = w0 ++ p0 :: (w1 ++ p1 :: (w2 ++ p2 :: rest)) →
    ∃ t : State, Host.Core.run Sys2Proof.core (w0.length + w1.length + w2.length + 3) s = .next t ∧ t.phase = .idle ∧
      t.inputs = rest ∧ t.params = s.params ∧ t.log = (execOneStep s.params i a s.log).1 ∧
      response t = some (execOneStep s.params i a s.log).2

/-- R207, R118: commands presented one after the other, each answered by the bus and its response taken, end the run: all
have retired, and the log has gained one record per command, in order. It holds for every sequence of lines and
answers, put on the ports one step after the other, which is the model's form of a program with its bus script (log
entry 3). -/
def Obligations.AnsweredCommandsEndOneByOne : Prop :=
  ∀ (p : Params) (cmds : List (ScriptedLine p)) (s : State) (rest : List Ports), s.phase = .idle → s.params = p →
    s.inputs = programInputs cmds ++ rest →
    ∃ t : State, Host.Core.run Sys2Proof.core (3 * cmds.length) s = .next t ∧
      t.RunOver s.log (cmds.map fun c => assembleLine c.line) ∧ t.inputs = rest ∧ t.params = p

/-! The commands (41_read.md, 42_write.md). -/

/-- R131, R130: RDREG from its ACCEPT to its response: one transaction, the byte in the first inbound position on success,
the wrapped native error on failure. -/
def Obligations.RdregReadsOneByte : Prop :=
  ∀ (addr val : Byte) (s : State), s.phase = .idle →
    decode (0b000#3 ++ addr ++ val : BitVec (3 + 8 + 8)) = .cmd (.rdreg addr val) ∧
    ∃ t, exec (.rdreg addr val) s = .next t ∧ t.phase = .xfer ∧ busRequest t = some ⟨[addr ||| 0x80], 1⟩ ∧
      t.log = s.log ++ [⟨[addr ||| 0x80], 1⟩] ∧
      ∀ (q : Ports) (rest : List Ports), q.busDone = true →
        (q.busFail = false →
          ∃ b h, answerOn 1 q = some (.ok [b] h) ∧ (∀ c cs, q.busIn = c :: cs → b = c) ∧
            ∃ u, exec (.rdreg addr val) { t with inputs := q :: rest } = .next u ∧ u.phase = .resp ∧
              u.rspStatus = some .ok ∧ u.inBuf[0]? = some (some b) ∧ response u = some (.okRead [b]) ∧ u.log = t.log) ∧
        (q.busFail = true →
          ∃ u, exec (.rdreg addr val) { t with inputs := q :: rest } = .next u ∧ u.phase = .resp ∧
            u.rspStatus = some .fail ∧ response u = some (.err (.transport (.bus q.busErr))) ∧ u.log = t.log)

/-- R130, R136 (and R131 to R134, R137): every read command, each of its own length whatever the address: one transaction
of the marked address byte; on success all the bytes captured, in order, none skipped and none added; on failure the
wrapped native error and no byte. -/
def Obligations.ReadsFollowTheTemplate : Prop :=
  ∀ (i : Instr) (n : Nat) (s : State), s.phase = .idle →
    ((∃ a v, i = .rdreg a v) ∧ n = 1 ∨ (∃ a v, i = .rdmeas a v) ∧ n = s.params.lenMeas ∨
      (∃ a v, i = .rdcalpt a v) ∧ n = s.params.lenCalpt ∨ (∃ a v, i = .rdcalh a v) ∧ n = s.params.lenCalh) →
    ∃ t, exec i s = .next t ∧ t.phase = .xfer ∧ busRequest t = some ⟨[addrOf i ||| 0x80], n⟩ ∧
      t.log = s.log ++ [⟨[addrOf i ||| 0x80], n⟩] ∧
      ∀ (q : Ports) (rest : List Ports), q.busDone = true →
        (q.busFail = false →
          ∃ bytes h, answerOn n q = some (.ok bytes h) ∧
            (∀ k < n, k < q.busIn.length → bytes[k]? = q.busIn[k]?) ∧
            ∃ u, exec i { t with inputs := q :: rest } = .next u ∧ u.phase = .resp ∧ u.rspStatus = some .ok ∧
              u.inBuf.take n = bytes.map some ∧ response u = some (.okRead bytes) ∧ u.log = t.log) ∧
        (q.busFail = true →
          ∃ u, exec i { t with inputs := q :: rest } = .next u ∧ u.phase = .resp ∧ u.rspStatus = some .fail ∧
            response u = some (.err (.transport (.bus q.busErr))) ∧ (∀ c ∈ u.inBuf, c = none) ∧ u.log = t.log)

/-- R150, R151, R153: WRREG from its ACCEPT to its response: one transaction of the two bytes, an acknowledgment with no
data on success whatever the data-in line carried, the wrapped native error on failure. -/
def Obligations.WrregWritesOneByte : Prop :=
  ∀ (addr val : Byte) (s : State), s.phase = .idle →
    decode (0b100#3 ++ addr ++ val : BitVec (3 + 8 + 8)) = .cmd (.wrreg addr val) ∧
    ∃ t, exec (.wrreg addr val) s = .next t ∧ t.phase = .xfer ∧ busRequest t = some ⟨[addr &&& 0x7F, val], 0⟩ ∧
      t.log = s.log ++ [⟨[addr &&& 0x7F, val], 0⟩] ∧
      ∀ (q : Ports) (rest : List Ports), q.busDone = true →
        (q.busFail = false →
          ∃ u, exec (.wrreg addr val) { t with inputs := q :: rest } = .next u ∧ u.phase = .resp ∧
            u.rspStatus = some .ok ∧ response u = some .okWrite ∧ (∀ c ∈ u.inBuf, c = none) ∧ u.log = t.log) ∧
        (q.busFail = true →
          ∃ u, exec (.wrreg addr val) { t with inputs := q :: rest } = .next u ∧ u.phase = .resp ∧
            u.rspStatus = some .fail ∧ response u = some (.err (.transport (.bus q.busErr))) ∧ u.log = t.log)

/-- R151: with a write in flight, no inbound byte on the bus channel reaches any element of the next state. -/
def Obligations.WriteNeverLooksAtInbound : Prop :=
  ∀ (s : State) (q : Ports) (rest : List Ports) (bytes : List Byte), s.phase = .xfer → s.cmdOp = some .wrreg →
    step { s with inputs := { q with busIn := bytes } :: rest } = step { s with inputs := q :: rest } ∧
    ∃ t, step { s with inputs := q :: rest } = .next t ∧ (t.phase = .resp → t.rspStatus = some .ok → t.inBuf = s.inBuf)

/-- R62: a command accepted again right after it has retired makes its own transaction and gives its own answer, even if
the address is the same: nothing is elided or answered from before. The response is read off the registers after RETIRE, which
is the model's choice (log entry 9). -/
def Obligations.RepeatedReadIsATransactionOfItsOwn : Prop :=
  ∀ (s : State) (addr val : Byte) (p0 p1 p2 r0 r1 r2 : Ports) (b c : Byte) (rest : List Ports),
    s.phase = .idle → s.inputs = p0 :: p1 :: p2 :: r0 :: r1 :: r2 :: rest →
    p0.cmdValid = true → r0.cmdValid = true →
    decode p0.cmdWord = .cmd (.rdreg addr val) → decode r0.cmdWord = .cmd (.rdreg addr val) →
    answerOn 1 p1 = some (.ok [b] rfl) → answerOn 1 r1 = some (.ok [c] rfl) → p2.rspReady = true → r2.rspReady = true →
    ∃ t u : State, Host.Core.run Sys2Proof.core 3 s = .next t ∧ response t = some (.okRead [b]) ∧
      Host.Core.run Sys2Proof.core 6 s = .next u ∧ response u = some (.okRead [c]) ∧
      u.log = s.log ++ [⟨[addr ||| 0x80], 1⟩, ⟨[addr ||| 0x80], 1⟩]

/-! Frames, errors, reset, hazards (10_state.md, 60_exceptions.md, 70_reset_and_hazards.md). -/

/-- R40: who writes what. For every command: no step touches the parameters or the inputs; ACCEPT leaves nothing else of
the framer (it writes every element) but only appends one record to the log; COMPLETE leaves the latches, the outbound
frame, the inbound length and the log; a write's COMPLETE on success also leaves the inbound buffer; RETIRE leaves
everything but `phase`. -/
def Obligations.ExecFrame : Prop :=
  ∀ (i : Instr) (s t : State), exec i s = .next t →
    t.params = s.params ∧ t.inputs = s.inputs ∧
    (s.phase = .idle → t.log = s.log ++ [frame s.params i]) ∧
    (s.phase ≠ .idle → t.cmdOp = s.cmdOp ∧ t.cmdAddr = s.cmdAddr ∧ t.cmdVal = s.cmdVal ∧ t.outLen = s.outLen ∧
      t.outBuf0 = s.outBuf0 ∧ t.outBuf1 = s.outBuf1 ∧ t.inLen = s.inLen ∧ t.log = s.log) ∧
    (s.phase = .xfer → opOf i = .wrreg → t.rspStatus = some .ok → t.inBuf = s.inBuf) ∧
    (s.phase = .resp → t = { s with phase := t.phase })

/-- R167: the response registers COMPLETE leaves are one of the two rows of the code table. -/
def Obligations.OnlyTheCodesOfTheTable : Prop :=
  ∀ s t : State, step s = .next t → s.phase = .xfer → t.phase = .resp →
    (t.rspStatus = some .ok ∧ t.rspErr = none ∧ (portsNow s).busFail = false) ∨
    (t.rspStatus = some .fail ∧ t.rspErr = some (.transport (.bus (portsNow s).busErr)) ∧
      devKind (.transport (.bus (portsNow s).busErr)) = 0b01#2 ∧
      xportKind (.transport (.bus (portsNow s).busErr)) = 0b1#1 ∧ (portsNow s).busFail = true)

/-- R95, R137: in every good state in RESP there is a response, and it is one of the three shapes, with exactly `InLen`
bytes after a read; no cell holds a value after a failure or a write. -/
def Obligations.ResponseShapes : Prop :=
  ∀ (s : State) (i : Instr), s.Inv → s.phase = .resp → inFlight s = some i → ∃ r, response s = some r ∧
    match r with
    | .okRead bytes => opIsRead (opOf i) = true ∧ s.rspStatus = some .ok ∧ bytes.length = inLength s.params (opOf i)
    | .okWrite => opOf i = .wrreg ∧ s.rspStatus = some .ok ∧ ∀ c ∈ s.inBuf, c = none
    | .err w => s.rspStatus = some .fail ∧ s.rspErr = some w ∧ ∀ c ∈ s.inBuf, c = none

/-- R93: in every good state in XFER the bus channel shows the frame of the command in flight, which is the last record of
the log. -/
def Obligations.BusChannelShowsTheFrame : Prop :=
  ∀ (s : State) (i : Instr), s.Inv → s.phase = .xfer → inFlight s = some i →
    busRequest s = some (frame s.params i) ∧ s.log.getLast? = some (frame s.params i)

/-- R36, R41: the invariant is kept by every step, and in a state that has it `step` always answers a next state. In XFER it
has every element that COMPLETE reads hold a value, so no step of such a run reads one that holds none. In IDLE with a reserved `op` presented, where R97 and D5 give no
step, the answer is the unchanged framer and the run goes on: that is the model's reading (log entry 4). -/
def Obligations.GoodStatesStepToGoodStates : Prop :=
  ∀ s : State, s.Inv → ∃ t, step s = .next t ∧ t.Inv

/-- The invariant holds at launch, for all legal parameters and inputs (R190, R208 `ResetState`). -/
def Obligations.LaunchIsGood : Prop :=
  (∀ s : State, s.ResetState → s.Inv) ∧ State.reset.ResetState

/-- R200: every record any step adds to the log is marked right (a one-byte frame with bit 7 set for a read, a two-byte
frame with bit 7 clear for a write), so a log that is right stays right; and bit 7 of the address byte is 1 exactly for
reads. -/
def Obligations.MarkerBitIsAlwaysRight : Prop :=
  (∀ s t : State, s.params.wellFormed = true → (∀ r ∈ s.log, markerRight r = true) → step s = .next t →
    t.params.wellFormed = true ∧ ∀ r ∈ t.log, markerRight r = true) ∧
  (∀ (i : Instr) (s : State), s.phase = .idle →
    ∃ t b, exec i s = .next t ∧ t.outBuf0 = some b ∧ (b.getLsbD 7 = true ↔ opIsRead (opOf i) = true))

/-- R208 `ParamsFixed`, R7: no run changes the parameters; `k` steps use up `k` inputs. -/
def Obligations.ParametersNeverChange : Prop :=
  ∀ (k : Nat) (s t : State), Host.Core.run Sys2Proof.core k s = .next t →
    t.params = s.params ∧ t.inputs = s.inputs.drop k

/-- R203, R196: if an answer is among the inputs to come a good state in XFER reaches RESP, and if the taking is among them a
good state in RESP reaches IDLE, within these inputs. That the response still shows after RETIRE is the model's view of the
registers (log entry 9). -/
def Obligations.AnsweredAndTakenCommandsFinish : Prop :=
  (∀ s : State, s.Inv → s.phase = .xfer → AnswerComes s.inputs →
    ∃ (k : Nat) (t : State), k ≤ s.inputs.length ∧ Host.Core.run Sys2Proof.core k s = .next t ∧ t.phase = .resp ∧ t.log = s.log) ∧
  (∀ s : State, s.Inv → s.phase = .resp → TakingComes s.inputs →
    ∃ (k : Nat) (t : State), k ≤ s.inputs.length ∧ Host.Core.run Sys2Proof.core k s = .next t ∧ t.phase = .idle ∧ t.log = s.log ∧
      response t = response s)

/-- R208, R207: a program finishes under `BusAnswers` and `IssuerTakes`. From every good state in IDLE, if the issuer presents
the commands of `prog`, every request is answered in the end and every response is taken in the end, the run comes to its
end: exactly the commands of `prog` accepted, in order, the last one retired, one record for each in the log. -/
def Obligations.ProgramsFinish : Prop :=
  ∀ (prog : List Instr) (s : State), s.Inv → s.phase = .idle → Issues prog s → BusAnswers s → IssuerTakes s →
    ∃ (k : Nat) (t : State), Host.Core.run Sys2Proof.core k s = .next t ∧ acceptedIn k s = prog ∧
      t.RunOver s.log prog

/-- R190: the reset state: IDLE, no other element holds a value, the outputs follow from `phase`, the log is empty. -/
def Obligations.ResetLeaves : Prop :=
  ∀ (p : Params) (env : List Ports),
    (State.launch p env).phase = .idle ∧ (State.launch p env).cmdOp = none ∧ (State.launch p env).cmdAddr = none ∧
    (State.launch p env).cmdVal = none ∧ (State.launch p env).outLen = none ∧ (State.launch p env).outBuf0 = none ∧
    (State.launch p env).outBuf1 = none ∧ (State.launch p env).inLen = none ∧
    (State.launch p env).inBuf.length = p.maxLen ∧ (∀ c ∈ (State.launch p env).inBuf, c = none) ∧
    (State.launch p env).rspStatus = none ∧ (State.launch p env).rspErr = none ∧ (State.launch p env).log = [] ∧
    (outputs (State.launch p env)).cmdReady = true ∧ (outputs (State.launch p env)).busReqValid = false ∧
    (outputs (State.launch p env)).rspValid = false

/-- R191, R13: with no command presented an idle framer starts nothing, however long, so reset causes no bus
transaction. -/
def Obligations.NothingStartsByItself : Prop :=
  ∀ (k : Nat) (s : State), s.phase = .idle → (∀ q ∈ s.inputs.take k, q.cmdValid = false) →
    Host.Core.run Sys2Proof.core k s = .next { s with inputs := s.inputs.drop k } ∧
    (outputs s).busReqValid = false

/-- R172: after a failure nothing lingers: the failing command retires like any other and the next command presented is
accepted with its own frame and no error value. -/
def Obligations.NoErrorLingers : Prop :=
  ∀ (s : State) (q q' : Ports) (rest : List Ports) (i : Instr), s.phase = .resp → s.rspStatus = some .fail →
    s.inputs = q :: q' :: rest → q.rspReady = true → q'.cmdValid = true → decode q'.cmdWord = .cmd i →
    ∃ t u, step s = .next t ∧ t.phase = .idle ∧ (outputs t).cmdReady = true ∧ step t = .next u ∧ u.phase = .xfer ∧
      busRequest u = some (frame s.params i) ∧ u.rspStatus = none ∧ u.rspErr = none

/-- R21, R22, R23: each handshake output is 1 exactly in its phase, and the request and response signals are the
registers. -/
def Obligations.HandshakesFollowThePhase : Prop :=
  ∀ s : State,
    ((outputs s).cmdReady = true ↔ s.phase = .idle) ∧ ((outputs s).busReqValid = true ↔ s.phase = .xfer) ∧
    ((outputs s).rspValid = true ↔ s.phase = .resp) ∧ (outputs s).busOutLen = s.outLen ∧
    (outputs s).busOut0 = s.outBuf0 ∧ (outputs s).busOut1 = s.outBuf1 ∧ (outputs s).busInLen = s.inLen ∧
    (outputs s).rspStatus = s.rspStatus ∧ (outputs s).rspData = s.inBuf ∧ (outputs s).rspErr = s.rspErr

/-- R40, R41, D13: every state has a step, for every command, and none is a fault or a refusal: no step waits on an element
that holds no value. Where COMPLETE after a success lacks `cmd_op`, or the `in_len` of a read, the rest of R114 happens and
`in_buf`, which alone depends on the missing element, holds no value: that is the model's choice (log entry 2), and no run
reaches such a state. That there is a step in IDLE with a reserved `op` presented, where R97 and D5 give none, is the model's
reading (log entry 4). -/
def Obligations.EveryStateHasAStep : Prop :=
  ∀ s : State,
    (∃ t, step s = .next t) ∧ (∀ i : Instr, ∃ t, exec i s = .next t) ∧
    (s.phase = .xfer → (portsNow s).busDone = true → (portsNow s).busFail = false →
      (s.cmdOp = none ∨ ∃ op, s.cmdOp = some op ∧ opIsRead op = true ∧ s.inLen = none) →
      step s = .next { s with
        phase := .resp
        rspStatus := some .ok
        rspErr := none
        inBuf := List.replicate s.params.maxLen none
        inputs := s.inputs.tail })

/-- R25, R40: of the command latches COMPLETE reads `cmd_op` alone, and only after a success. In XFER and RESP a step does the
same whatever `cmd_addr` and `cmd_val` hold, a value or none; and while the bus is silent, after a failure, and in RESP
whatever `cmd_op` holds. -/
def Obligations.LatchesAreNotReadAgain : Prop :=
  (∀ (s : State) (addr val : Option Byte), s.phase ≠ .idle →
    ∃ t, step s = .next t ∧
      step { s with cmdAddr := addr, cmdVal := val } = .next { t with cmdAddr := addr, cmdVal := val }) ∧
  (∀ (s : State) (op : Option Op),
    s.phase = .xfer ∧ ((portsNow s).busDone = false ∨ (portsNow s).busFail = true) ∨ s.phase = .resp →
    ∃ t, step s = .next t ∧ step { s with cmdOp := op } = .next { t with cmdOp := op })

/-- What a step runs: in IDLE the presented command, in XFER any command of the latched `cmd_op`, in RESP any command's RETIRE; around
`exec` a step only moves on to the next inputs. A word placed by `withFetchWord` is run by the very next step. The spec gives
the steps of each phase; that they are `exec` of the presented command or of one of the latched `cmd_op` is the model's choice
(log entry 8), and so is where `withFetchWord` places a word, on the command channel with `phase` IDLE (log entry 10). -/
def Obligations.StepRunsTheDecodedCommand : Prop :=
  (∀ (s : State) (i : Instr), s.phase = .idle → (portsNow s).cmdValid = true →
    decode (portsNow s).cmdWord = .cmd i → step s = afterTick (exec i s)) ∧
  (∀ (s : State) (i : Instr), s.phase = .xfer → s.cmdOp = some (opOf i) → step s = afterTick (exec i s)) ∧
  (∀ (s : State) (i : Instr), s.phase = .resp → step s = afterTick (exec i s)) ∧
  (∀ (s : State) (nbits w : Nat) (i : Instr), decodeTableWord nbits w = some i →
    step (s.withFetchWord nbits w) = afterTick (exec i (s.withFetchWord nbits w)) ∧
    (s.withFetchWord nbits w).phase = .idle)

end
end

