-- ==== Sys2Proof/Laws/PerInstr.lean ====
section
/-!
SUPPORT. Facts about every command as syntax, one lemma per constructor: the word of a command has the command's `op`
code, address and value in the fields of 30_encoding.md R81 and R82.
-/

namespace Sys2Proof.Laws.EncodedFields

open Sys2Proof.Machine

/-- The word of `i` has its three fields where R81 puts them. -/
def Statement (i : Instr) : Prop :=
  fieldsOf (encode i) = ⟨opCode (opOf i), addrOf i, valOf i⟩

theorem rdreg (addr val : Byte) : Statement (.rdreg addr val) := fieldsOf_wordOf 0 addr val

theorem rdmeas (addr val : Byte) : Statement (.rdmeas addr val) := fieldsOf_wordOf 1 addr val

theorem rdcalpt (addr val : Byte) : Statement (.rdcalpt addr val) := fieldsOf_wordOf 2 addr val

theorem rdcalh (addr val : Byte) : Statement (.rdcalh addr val) := fieldsOf_wordOf 3 addr val

theorem wrreg (addr val : Byte) : Statement (.wrreg addr val) := fieldsOf_wordOf 4 addr val

end Sys2Proof.Laws.EncodedFields
end

