-- ==== Sys2Proof/Tests/Slice0.lean ====
section
/-!
SUPPORT. The model's own tests. Every expected value is from the spec's tables (95_test_vectors.md S1 to S7, V1 to V8, F1
to F12) or worked out by hand from the rule named. Then one witness per statement that has hypotheses: a concrete state
and operands that meet all of them.
-/

namespace Sys2Proof.Tests

open Sys2Proof.Machine

/-! Helpers: the state a step answers, and small states. -/

def after : StepOutcome → Option State
  | .next s => some s
  | .fault _ => none
  | .refused _ => none

/-- Right after reset, with the inputs `env` to come. -/
def idleWith (env : List Ports) : State :=
  State.launch Params.defaults env

/-- The command `i` accepted from reset, with the inputs `env` to come. -/
def xferWith (i : Instr) (env : List Ports) : State :=
  { accept (opOf i) (addrOf i) (valOf i) (frame Params.defaults i) (idleWith []) with inputs := env }

/-- The command `i` failed with the native error `e`, with the inputs `env` to come. -/
def failedWith (i : Instr) (e : Nat) (env : List Ports) : State :=
  { raiseBusFail e (xferWith i []) with inputs := env }

/-- A bus that is silent and a word presented. -/
def early : Ports :=
  presentPorts 0x4F427

def okPorts (bytes : List Byte) : Ports :=
  answerPorts (.ok bytes rfl)

def failPorts (e : Nat) : Ports :=
  answerPorts (n := 0) (.fail e)

/-! The checks of WellFormed.lean: an ill-formed term for each, refused. -/

theorem test_wf_reserved_op : CmdFields.wellFormed ⟨0b101, 0xD0, 0x00⟩ = false := by decide
theorem test_wf_highest_op : CmdFields.wellFormed ⟨0b100, 0xFF, 0xFF⟩ = true := by decide
theorem test_wf_any_operands : Instr.wellFormed (.wrreg 0xFF 0xFF) = true := by decide
theorem test_wf_len_meas : Params.wellFormed { Params.defaults with lenMeas := 0 } = false := by decide
theorem test_wf_len_calpt : Params.wellFormed { Params.defaults with lenCalpt := 0 } = false := by decide
theorem test_wf_len_calh : Params.wellFormed { Params.defaults with lenCalh := 0 } = false := by decide
theorem test_wf_err_w : Params.wellFormed { Params.defaults with errW := 0 } = false := by decide
theorem test_wf_defaults : Params.wellFormed Params.defaults = true := by decide
theorem test_max_len_defaults : Params.defaults.maxLen = 26 := by decide

/-! Decoding, one word per command written out bit by bit from R81 and R82 (V3, S5, S6). -/

theorem test_decode_rdreg : decode 0b000_11010000_00000000#19 = .cmd (.rdreg 0xD0 0x00) := by decide
theorem test_decode_rdmeas : decode 0b001_11110111_00000000#19 = .cmd (.rdmeas 0xF7 0x00) := by decide
theorem test_decode_rdcalpt : decode 0b010_10001000_00000000#19 = .cmd (.rdcalpt 0x88 0x00) := by decide
theorem test_decode_rdcalh : decode 0b011_11100001_01011010#19 = .cmd (.rdcalh 0xE1 0x5A) := by decide
theorem test_decode_wrreg : decode 0b100_11110100_00100111#19 = .cmd (.wrreg 0xF4 0x27) := by decide
theorem test_decode_reserved_5 : decode 0b101_00000000_00000000#19 = .reservedOp 0b101 := by decide
theorem test_decode_reserved_7 : decode 0b111_11111111_11111111#19 = .reservedOp 0b111 := by decide
theorem test_encode_wrreg : encode (.wrreg 0xF4 0x27) = 0x4F427 := by decide
theorem test_table_word : decodeTableWord 24 0x3E15A = some (.rdcalh 0xE1 0x5A) := by decide
theorem test_table_word_reserved : decodeTableWord 24 0x50000 = none := by decide
theorem test_table_word_too_wide : decodeTableWord 24 0x80000 = none := by decide

/-! The address encoder (V1, V2). -/

theorem test_read_byte_0x50 : readAddrByte 0x50 = 0xD0 := by decide
theorem test_read_byte_0xFF : readAddrByte 0xFF = 0xFF := by decide
theorem test_write_byte_0xF4 : writeAddrByte 0xF4 = 0x74 := by decide
theorem test_write_byte_0xAA : writeAddrByte 0xAA = 0x2A := by decide

/-! The error word (V7, for several widths) and the codes of the small registers (R24, R31). -/

theorem test_error_word_8 : errorWord 8 (translateError 0xA5) = 0x3A5#11 := by decide
theorem test_error_word_4 : errorWord 4 (translateError 0x3) = 0x33#7 := by decide
theorem test_error_word_1 : errorWord 1 (translateError 0) = 0x6#4 := by decide
theorem test_error_word_16 : errorWord 16 (translateError 0xDEAD) = 0x3DEAD#19 := by decide
theorem test_phase_codes : [phaseCode .idle, phaseCode .xfer, phaseCode .resp] = [0b00, 0b01, 0b10] := by decide
theorem test_status_bits : [statusBit (statusOf false), statusBit (statusOf true)] = [0, 1] := by decide

/-! Two theorems per command: its request (V4) and its answer (V5, V6, S5 to S7). -/

theorem test_rdreg_request :
    (after (exec (.rdreg 0x7F 0xFF) (idleWith []))).bind busRequest = some ⟨[0xFF], 1⟩ := by decide
theorem test_rdreg_answer :
    (after (exec (.rdreg 0xD0 0) (xferWith (.rdreg 0xD0 0) [okPorts [0x4B]]))).bind response =
      some (.okRead [0x4B]) := by decide
theorem test_rdmeas_request :
    (after (exec (.rdmeas 0x00 0) (idleWith []))).bind busRequest = some ⟨[0x80], 8⟩ := by decide
theorem test_rdmeas_answer :
    (after (exec (.rdmeas 0xF7 0) (xferWith (.rdmeas 0xF7 0) [okPorts [1, 2, 3, 4, 5, 6, 7, 8]]))).bind response =
      some (.okRead [1, 2, 3, 4, 5, 6, 7, 8]) := by decide
theorem test_rdcalpt_request :
    (after (exec (.rdcalpt 0x08 0) (idleWith []))).bind busRequest = some ⟨[0x88], 26⟩ := by decide
theorem test_rdcalpt_failure :
    (after (exec (.rdcalpt 0x88 0) (xferWith (.rdcalpt 0x88 0) [failPorts 0x00]))).bind response =
      some (.err (.transport (.bus 0x00))) := by decide
theorem test_rdcalh_request :
    (after (exec (.rdcalh 0x88 0) (idleWith []))).bind busRequest = some ⟨[0x88], 7⟩ := by decide
theorem test_rdcalh_failure_leaves_no_byte :
    (after (exec (.rdcalh 0xE1 0) (xferWith (.rdcalh 0xE1 0) [failPorts 0x03]))).map (·.inBuf) =
      some (List.replicate 26 none) := by decide
theorem test_wrreg_request :
    (after (exec (.wrreg 0x80 0x80) (idleWith []))).map (fun s => (busRequest s, s.log)) =
      some (some ⟨[0x00, 0x80], 0⟩, [⟨[0x00, 0x80], 0⟩]) := by decide
theorem test_wrreg_answer_ignores_data_in :
    (after (exec (.wrreg 0xF2 0x01) (xferWith (.wrreg 0xF2 0x01) [okPorts [0x99, 0x98]]))).map
      (fun s => (response s, s.inBuf)) = some (some .okWrite, List.replicate 26 none) := by decide

/-! The sequencer, one step each (V8), and the parameters of V4's last line. -/

theorem test_step_accept :
    (after (step (idleWith [presentPorts 0x0D000]))).map (fun s => (s.phase, inFlight s)) =
      some (.xfer, some (.rdreg 0xD0 0x00)) := by decide
theorem test_step_reserved_refused :
    after (step (idleWith [presentPorts 0x50000])) = some (idleWith []) := by decide
theorem test_step_nothing_presented : after (step (idleWith [])) = some (idleWith []) := by decide
theorem test_step_early_word_held :
    after (step (xferWith (.rdreg 0xD0 0) [early])) = some (xferWith (.rdreg 0xD0 0) []) := by decide
theorem test_step_failure :
    (after (step (xferWith (.wrreg 0xF4 0x27) [failPorts 0xA5]))).map (fun s => (s.phase, s.rspStatus, s.rspErr)) =
      some (.resp, some .fail, some (.transport (.bus 0xA5))) := by decide
theorem test_failure_word :
    (after (step (xferWith (.rdreg 0xD0 0) [failPorts 0x01]))).map (fun s => (rspErrBits s).map (·.toNat)) =
      some (some 0x301) := by decide
theorem test_step_retire :
    (after (step (failedWith (.rdreg 0xD0 0) 1 [takePorts]))).map (fun s => (s.phase, (outputs s).cmdReady)) =
      some (.idle, true) := by decide
theorem test_step_response_held :
    (after (step (failedWith (.rdreg 0xD0 0) 1 []))).map (fun s => (s.phase, (outputs s).rspValid)) =
      some (.resp, true) := by decide
theorem test_step_with_fetch_word :
    (after (step (State.reset.withFetchWord 24 0x4F427))).map (·.log) = some [⟨[0x74, 0x27], 0⟩] := by decide
theorem test_len_meas_6 :
    (after (exec (.rdmeas 0xF7 0) (State.launch { Params.defaults with lenMeas := 6 } []))).bind busRequest =
      some ⟨[0xF7], 6⟩ := by decide
/-- Log entry 16: no request is shown, whichever register holds no value. -/
theorem test_no_request_without_values :
    busRequest { xferWith (.wrreg 1 2) [] with outLen := none } = none ∧
      busRequest { xferWith (.wrreg 1 2) [] with outBuf1 := none } = none ∧
      busRequest { xferWith (.wrreg 1 2) [] with inLen := none } = none := by decide
/-- Log entry 2: without the element COMPLETE reads, the machine goes on and no cell holds a value. -/
theorem test_complete_without_length :
    (after (step { xferWith (.rdreg 0xD0 0) [okPorts [0x4B]] with inLen := none })).map
      (fun t => (t.phase, t.rspStatus, t.inBuf)) = some (.resp, some .ok, List.replicate 26 none) := by decide
theorem test_complete_without_command :
    (after (step { idleWith [okPorts [0x4B]] with phase := .xfer })).map (fun t => (t.phase, t.inBuf)) =
      some (.resp, List.replicate 26 none) := by decide
/-- R25: without `cmd_addr` and `cmd_val` a read completes all the same; without any latch a failure does. -/
theorem test_operand_latches_unread :
    (after (step { xferWith (.rdreg 0xD0 0) [okPorts [0x4B]] with cmdAddr := none, cmdVal := none })).bind response =
        some (.okRead [0x4B]) ∧
      (after (step { idleWith [failPorts 3] with phase := .xfer })).bind response =
        some (.err (.transport (.bus 3))) := by decide

/-! Witnesses: for each statement with hypotheses, a concrete case that meets them all (each clause of it). -/

/-- For DecodeIsTotalAndDropsNoBit, both clauses, where they meet. -/
theorem witness_decode_total :
    ((0x4FFFF : CmdWord).extractLsb' 16 3).toNat ≤ 4 ∧ 4 < ((0x50000 : CmdWord).extractLsb' 16 3).toNat := by decide
/-- For ReadAddressByteIsMarked, WriteAddressByteIsUnmarked, AddressBitSevenNeverMatters, AcceptIssuesTheFrame,
RdregReadsOneByte, WrregWritesOneByte, and the second clause of MarkerBitIsAlwaysRight. -/
theorem witness_idle : (idleWith []).phase = .idle ∧ opIsRead (opOf (.rdcalpt 0xFF 0)) = true := by decide
/-- For ReadsIgnoreVal, both clauses. -/
theorem witness_reads_ignore_val :
    opIsRead .rdreg = true ∧ (idleWith []).phase = .idle ∧ (xferWith (.rdreg 0xD0 0) []).phase ≠ .idle := by decide
/-- For ErrorWordFields, and the third clause of NoErrorInformationIsLost. -/
theorem witness_error_word : 0xFF < 2 ^ 8 ∧ 1 < 2 ^ 1 := by decide
/-- For AcceptEffect and StepRunsTheDecodedCommand: a command is presented. -/
theorem witness_accept_presented :
    (idleWith [presentPorts 0x4FFFF]).phase = .idle ∧ (portsNow (idleWith [presentPorts 0x4FFFF])).cmdValid = true ∧
      decode (portsNow (idleWith [presentPorts 0x4FFFF])).cmdWord = .cmd (.wrreg 0xFF 0xFF) := by decide
/-- For AcceptEffect: no command is presented. -/
theorem witness_accept_none :
    (portsNow (idleWith [presentPorts 0x50000])).cmdValid = true ∧
      ∀ i, decode (portsNow (idleWith [presentPorts 0x50000])).cmdWord ≠ .cmd i := by
  have h : decode (portsNow (idleWith [presentPorts 0x50000])).cmdWord = .reservedOp 5 := by decide
  exact ⟨by decide, fun i => by rw [h]; simp⟩
/-- For RequestIsHeldInXfer. -/
theorem witness_held_in_xfer :
    (xferWith (.wrreg 1 2) [early]).phase = .xfer ∧ (portsNow (xferWith (.wrreg 1 2) [early])).busDone = false ∧
      (after (exec (.wrreg 1 2) (xferWith (.wrreg 1 2) [early]))).isSome = true := by decide
/-- For CompleteAfterSuccess: a read and a write whose transfer succeeds, with exactly the inbound bytes asked for. -/
theorem witness_complete_success :
    ∀ i ∈ [Instr.rdcalh 0xE1 0, Instr.wrreg 0xF4 0x27], ∃ s : State, s.phase = .xfer ∧ s.cmdOp = some (opOf i) ∧
      s.inLen = some (inLength s.params (opOf i)) ∧ s.inBuf.length = s.params.maxLen ∧ (portsNow s).busDone = true ∧
      (portsNow s).busFail = false ∧ (portsNow s).busIn.length = inLength s.params (opOf i) := by
  intro i hi
  refine ⟨xferWith i [okPorts (List.replicate (inLength Params.defaults (opOf i)) 0xA0)], ?_⟩
  revert hi
  simp only [List.mem_cons, List.not_mem_nil, or_false]
  rintro (rfl | rfl) <;> decide
/-- For CompleteAfterFailure, NoErrorInformationIsLost. -/
theorem witness_complete_failure :
    (xferWith (.rdreg 0xD0 0) [failPorts 1]).phase = .xfer ∧
      (portsNow (xferWith (.rdreg 0xD0 0) [failPorts 1])).busDone = true ∧
      (portsNow (xferWith (.rdreg 0xD0 0) [failPorts 1])).busFail = true := by decide
/-- For RetireEffect, both clauses. -/
theorem witness_retire :
    (failedWith (.rdreg 0xD0 0) 1 [takePorts]).phase = .resp ∧
      (portsNow (failedWith (.rdreg 0xD0 0) 1 [takePorts])).rspReady = true ∧
      (portsNow (failedWith (.rdreg 0xD0 0) 1 [])).rspReady = false := by decide
/-- For PhaseTable: every row of the table is some step's. -/
theorem witness_phase_table :
    (after (step (idleWith [presentPorts 0x0D000]))).map (·.phase) = some .xfer ∧
      (after (step (idleWith []))).map (·.phase) = some .idle ∧
      (after (step (xferWith (.rdreg 1 0) [okPorts [7]]))).map (·.phase) = some .resp ∧
      (after (step (xferWith (.rdreg 1 0) []))).map (·.phase) = some .xfer ∧
      (after (step (failedWith (.rdreg 1 0) 1 [takePorts]))).map (·.phase) = some .idle ∧
      (after (step (failedWith (.rdreg 1 0) 1 []))).map (·.phase) = some .resp := by decide
/-- For OneRecordPerAcceptedCommand, ParametersNeverChange. -/
theorem witness_one_record : (after (Host.Core.run Sys2Proof.core 1 (idleWith [presentPorts 0x0D000]))).isSome = true ∧
    acceptedIn 1 (idleWith [presentPorts 0x0D000]) = [.rdreg 0xD0 0x00] := by decide
/-- For SilentBusHangs, for one step more than there are inputs. -/
theorem witness_silent_bus :
    (xferWith (.rdreg 0xD0 0) [early, early]).phase = .xfer ∧
      ∀ q ∈ (xferWith (.rdreg 0xD0 0) [early, early]).inputs.take 3, q.busDone = false := by decide
/-- For EarlyCommandWaits, both clauses. -/
theorem witness_early_command :
    (xferWith (.rdreg 0xD0 0) []).phase ≠ .idle ∧ (failedWith (.rdreg 0xD0 0) 1 [takePorts, early]).phase = .resp ∧
      (failedWith (.rdreg 0xD0 0) 1 [takePorts, early]).inputs = [takePorts, early] ∧ takePorts.rspReady = true ∧
      early.cmdValid = true ∧ decode early.cmdWord = .cmd (.wrreg 0xF4 0x27) := by decide
/-- For ReservedOpIsRefused. -/
theorem witness_reserved_op :
    (idleWith [presentPorts 0x50000, presentPorts 0x50000, early]).phase = .idle ∧
      5 ≤ (fieldsOf (presentPorts 0x50000).cmdWord).op.toNat ∧
      (idleWith [presentPorts 0x50000, presentPorts 0x50000, early]).inputs =
        List.replicate 2 (presentPorts 0x50000) ++ [early] := by decide
/-- For PastCommandsLeaveNoTrace: two idle states with different pasts: fresh from reset, and after a failed read. -/
theorem witness_past_commands :
    (idleWith [early]).phase = .idle ∧ (retire (failedWith (.rdreg 0xD0 0) 1 [early])).phase = .idle ∧
      (retire (failedWith (.rdreg 0xD0 0) 1 [early])).params = (idleWith [early]).params ∧
      (retire (failedWith (.rdreg 0xD0 0) 1 [early])).inputs = (idleWith [early]).inputs ∧
      (after (Host.Core.run Sys2Proof.core 1 (idleWith [early]))).isSome = true := by decide
/-- For ThreeStepsAgreeWithOneStep: a read that answers, with a wait before each step: nothing and a reserved word presented, the bus silent, the response
not taken. -/
theorem witness_three_steps :
    (idleWith ([quietPorts, presentPorts 0x50000] ++ presentPorts 0x0D000 :: ([early] ++ okPorts [0x4B] ::
        ([quietPorts] ++ takePorts :: [])))).phase = .idle ∧
      (∀ q ∈ [quietPorts, presentPorts 0x50000], q.cmdValid = false ∨ ∀ j, decode q.cmdWord ≠ .cmd j) ∧
      (presentPorts 0x0D000).cmdValid = true ∧ decode (presentPorts 0x0D000).cmdWord = .cmd (.rdreg 0xD0 0x00) ∧
      (∀ q ∈ [early], q.busDone = false) ∧
      answerOn (inLength Params.defaults (opOf (.rdreg 0xD0 0x00))) (okPorts [0x4B]) = some (.ok [0x4B] rfl) ∧
      (∀ q ∈ [quietPorts], q.rspReady = false) ∧ takePorts.rspReady = true := by
  refine ⟨by decide, ?_, by decide, by decide, by decide, by decide, by decide, by decide⟩
  simp only [List.mem_cons, List.not_mem_nil, or_false]
  rintro q (rfl | rfl)
  · exact .inl rfl
  · have h : decode (presentPorts 0x50000).cmdWord = .reservedOp 5 := by decide
    exact .inr fun j => by rw [h]; simp
/-- A program of two lines with its bus script: a read that answers and a write that fails. -/
def script : List (ScriptedLine Params.defaults) :=
  [⟨.rdreg 0xD0, .ok [0x4B] rfl⟩, ⟨.wrreg 0xF4 0x27, .fail 1⟩]

/-- For AnsweredCommandsEndOneByOne. -/
theorem witness_answered_commands :
    (idleWith (programInputs script ++ [early])).phase = .idle ∧
      (idleWith (programInputs script ++ [early])).params = Params.defaults ∧
      (idleWith (programInputs script ++ [early])).inputs = programInputs script ++ [early] := ⟨rfl, rfl, rfl⟩
/-- For RdregReadsOneByte and WrregWritesOneByte: both answers. -/
theorem witness_rdreg_answers :
    (okPorts [0x4B]).busDone = true ∧ (okPorts [0x4B]).busFail = false ∧ (okPorts [0x4B]).busIn = [0x4B] ∧
      (failPorts 1).busDone = true ∧ (failPorts 1).busFail = true := by decide
/-- For ReadsFollowTheTemplate: each command, both answers. -/
theorem witness_reads :
    (idleWith []).phase = .idle ∧ (∃ a v, Instr.rdreg 0xD0 0 = .rdreg a v) ∧
      ((∃ a v, Instr.rdmeas 0xF7 0 = .rdmeas a v) ∧ 8 = (idleWith []).params.lenMeas) ∧
      ((∃ a v, Instr.rdcalpt 0x88 0 = .rdcalpt a v) ∧ 26 = (idleWith []).params.lenCalpt) ∧
      ((∃ a v, Instr.rdcalh 0xE1 0 = .rdcalh a v) ∧ 7 = (idleWith []).params.lenCalh) ∧
      (okPorts (List.replicate 26 0x11)).busDone = true ∧ (okPorts (List.replicate 26 0x11)).busFail = false ∧
      (failPorts 1).busDone = true ∧
      (failPorts 1).busFail = true :=
  ⟨rfl, ⟨_, _, rfl⟩, ⟨⟨_, _, rfl⟩, rfl⟩, ⟨⟨_, _, rfl⟩, rfl⟩, ⟨⟨_, _, rfl⟩, rfl⟩, by decide⟩
/-- For EveryBusAnswerIsDelivered: a good state in XFER with an answer of the longest length, and with a failure. -/
theorem witness_bus_answers :
    (xferWith (.rdcalpt 0x88 0) [okPorts (List.replicate 26 0x11)]).Inv ∧
      inFlight (xferWith (.rdcalpt 0x88 0) [okPorts (List.replicate 26 0x11)]) = some (.rdcalpt 0x88 0) ∧
      answerOn 26 (okPorts (List.replicate 26 0x11)) = some (.ok (List.replicate 26 0x11) rfl) ∧
      (xferWith (.wrreg 0xF4 0x27) [failPorts 3]).Inv ∧ answerOn 0 (failPorts 3) = some (.fail 3) := by decide
/-- R54: no answer is shorter or longer than the request, whatever the levels list: the bytes past it are not looked at. -/
theorem test_answer_is_exact :
    answerOn 2 (okPorts [0x11, 0x22, 0x33]) = some (.ok [0x11, 0x22] rfl) ∧
      (match answerOn 2 (okPorts []) with | some (.ok bytes _) => bytes.length | _ => 0) = 2 := by decide
/-- For WriteNeverLooksAtInbound. -/
theorem witness_write_in_flight :
    (xferWith (.wrreg 0xF4 0x27) []).phase = .xfer ∧
      (xferWith (.wrreg 0xF4 0x27) []).cmdOp = some .wrreg := by decide
/-- For RepeatedReadIsATransactionOfItsOwn. Each answer is one byte. -/
theorem witness_repeated_read :
    (idleWith [presentPorts 0x0D000, okPorts [0x11], takePorts, presentPorts 0x0D000, okPorts [0x22], takePorts]).phase =
        .idle ∧
      (presentPorts 0x0D000).cmdValid = true ∧
      decode (presentPorts 0x0D000).cmdWord = .cmd (.rdreg 0xD0 0x00) ∧
      answerOn 1 (okPorts [0x11]) = some (.ok [0x11] rfl) ∧ answerOn 1 (okPorts [0x22]) = some (.ok [0x22] rfl) ∧
      takePorts.rspReady = true := by decide
/-- For ExecFrame: `exec` answers a next state in each phase. -/
theorem witness_exec_frame :
    (after (exec (.wrreg 1 2) (idleWith []))).isSome = true ∧
      (after (exec (.wrreg 1 2) (xferWith (.wrreg 1 2) [okPorts []]))).map (·.rspStatus) = some (some .ok) ∧
      (after (exec (.wrreg 1 2) (failedWith (.wrreg 1 2) 1 [takePorts]))).isSome = true := by decide
/-- For OnlyTheCodesOfTheTable, both rows. -/
theorem witness_code_table :
    (after (step (xferWith (.rdreg 1 0) [okPorts [9]]))).map (fun t => (t.phase, t.rspStatus)) =
        some (.resp, some .ok) ∧
      (after (step (xferWith (.rdreg 1 0) [failPorts 2]))).map (fun t => (t.phase, t.rspStatus)) =
        some (.resp, some .fail) := by decide
/-- For ResponseShapes: a good state in RESP for each shape of response. -/
theorem witness_response_shapes :
    (∃ s : State, s.Inv ∧ s.phase = .resp ∧ inFlight s = some (.rdreg 1 0) ∧ response s = some (.okRead [9])) ∧
      (∃ s : State, s.Inv ∧ s.phase = .resp ∧ inFlight s = some (.wrreg 1 2) ∧ response s = some .okWrite) ∧
      (∃ s : State, s.Inv ∧ s.phase = .resp ∧ inFlight s = some (.rdcalh 1 0) ∧
        response s = some (.err (.transport (.bus 3)))) :=
  ⟨⟨captureRead 1 (xferWith (.rdreg 1 0) [okPorts [9]]), by decide⟩,
    ⟨ackWrite (xferWith (.wrreg 1 2) []), by decide⟩, ⟨failedWith (.rdcalh 1 0) 3 [], by decide⟩⟩
/-- For BusChannelShowsTheFrame. -/
theorem witness_bus_channel :
    (xferWith (.rdmeas 0xF7 0) [early]).Inv ∧ (xferWith (.rdmeas 0xF7 0) [early]).phase = .xfer ∧
      inFlight (xferWith (.rdmeas 0xF7 0) [early]) = some (.rdmeas 0xF7 0) := by decide
/-- For GoodStatesStepToGoodStates. -/
theorem witness_good_state : (idleWith [early]).Inv ∧ (xferWith (.wrreg 1 2) [failPorts 255]).Inv := by decide
/-- The invariant is not empty of content: XFER without a latched command is no good state. -/
theorem test_inv_rules_out : ¬ ({ idleWith [] with phase := .xfer } : State).Inv := by decide
/-- For LaunchIsGood. -/
theorem witness_launch : (idleWith [early]).ResetState :=
  ⟨Params.defaults, [early], by decide, by decide, rfl⟩
/-- For MarkerBitIsAlwaysRight, first clause. -/
theorem witness_marker :
    (xferWith (.wrreg 0xF4 0x27) []).params.wellFormed = true ∧
      (∀ r ∈ (xferWith (.wrreg 0xF4 0x27) []).log, markerRight r = true) ∧
      (after (step (xferWith (.wrreg 0xF4 0x27) []))).isSome = true := by decide
theorem test_marker_wrong : markerRight ⟨[0x50], 1⟩ = false ∧ markerRight ⟨[0xF4, 0x27], 0⟩ = false := by decide
/-- For AnsweredAndTakenCommandsFinish, both clauses. -/
theorem witness_answers_and_takes :
    (xferWith (.rdreg 1 0) [early, okPorts [5]]).Inv ∧ (xferWith (.rdreg 1 0) [early, okPorts [5]]).phase = .xfer ∧
      AnswerComes (xferWith (.rdreg 1 0) [early, okPorts [5]]).inputs ∧
      (failedWith (.rdreg 1 0) 3 [early, takePorts]).Inv ∧ (failedWith (.rdreg 1 0) 3 [early, takePorts]).phase = .resp ∧
      TakingComes (failedWith (.rdreg 1 0) 3 [early, takePorts]).inputs := by decide

/-! The launch premises of R208 are about a whole run. `scan` looks at every state of a run that uses up its inputs. -/

/-- `P`, of the commands accepted so far and the state, holds at each of the next states of a run, up to one in IDLE with
no input left. -/
def scan (P : List Instr → State → Bool) : Nat → List Instr → State → Bool
  | 0, done, s => decide (s.phase = .idle) && decide (s.inputs = []) && P done s
  | n + 1, done, s =>
    P done s &&
      match step s with
      | .next t => scan P n (done ++ (if s.phase = .idle then (presented s).toList else [])) t
      | .fault _ => true
      | .refused _ => true

theorem scan_sound {P : List Instr → State → Bool} :
    ∀ (n : Nat) (done : List Instr) (s : State), scan P n done s = true →
      ∀ (k : Nat) (t : State), Host.Core.run Sys2Proof.core k s = .next t → P (done ++ acceptedIn k s) t = true
  | 0, done, s, h, k, t, hk => by
    simp only [scan, Bool.and_eq_true, decide_eq_true_eq] at h
    obtain ⟨rfl, hd⟩ := quiet_end h.1.1 h.1.2 hk
    simpa [hd] using h.2
  | n + 1, done, s, h, 0, t, hk => by
    cases hk
    simp only [scan, Bool.and_eq_true] at h
    simpa [acceptedIn] using h.1
  | n + 1, done, s, h, k + 1, t, hk => by
    obtain ⟨u, hu, hk'⟩ := run_succ_inv hk
    simp only [scan, hu, Bool.and_eq_true] at h
    simpa [acceptedIn, hu] using scan_sound n _ u h.2 k t hk'

/-- For ProgramsFinish: the premises hold of the launch state of a program with its bus script. -/
theorem witness_programs_finish :
    (idleWith (programInputs script)).Inv ∧ (idleWith (programInputs script)).phase = .idle ∧
      Issues [.rdreg 0xD0 0x00, .wrreg 0xF4 0x27] (idleWith (programInputs script)) ∧
      BusAnswers (idleWith (programInputs script)) ∧ IssuerTakes (idleWith (programInputs script)) := by
  refine ⟨by decide, rfl, fun k t hk hp => ?_, fun k t hk hp => ?_, fun k t hk hp => ?_⟩
  · have h := scan_sound (P := fun done t => t.phase != .idle ||
      ((!(portsNow t).cmdValid || [Instr.rdreg 0xD0 0x00, .wrreg 0xF4 0x27][done.length]?.any fun i =>
        decide (decode (portsNow t).cmdWord = .cmd i)) && (decide (2 ≤ done.length) || t.inputs.any (·.cmdValid)))) 6 []
      (idleWith (programInputs script)) (by decide) k t hk
    simp only [hp, bne_self_eq_false, Bool.false_or, List.nil_append, Bool.and_eq_true, Bool.or_eq_true,
      Bool.not_eq_true', decide_eq_true_eq, Option.any_eq_true, List.any_eq_true] at h
    refine ⟨fun hv => ?_, fun hl => ?_⟩
    · obtain ⟨i, hi, hw⟩ := h.1.resolve_left (by simp [hv])
      exact ⟨i, hi, hw⟩
    · exact h.2.resolve_left (by simpa using hl)
  · have h := scan_sound (P := fun _ t => t.phase != .xfer || decide (AnswerComes t.inputs)) 6 []
      (idleWith (programInputs script)) (by decide) k t hk
    simpa [hp] using h
  · have h := scan_sound (P := fun _ t => t.phase != .resp || decide (TakingComes t.inputs)) 6 []
      (idleWith (programInputs script)) (by decide) k t hk
    simpa [hp] using h

/-- R208: `BusAnswers` asks for an answer to every request: it fails of a run whose second command is never answered. -/
theorem test_second_command_unanswered :
    ¬ BusAnswers (idleWith [presentPorts 0x0D000, okPorts [0x4B], takePorts, presentPorts 0x0D000]) := by
  intro h
  have := h 4 _ rfl rfl
  revert this
  decide
/-- R208: `IssuerTakes` asks for every response to be taken: it fails of a run whose second response is never taken. -/
theorem test_second_response_untaken :
    ¬ IssuerTakes (idleWith [presentPorts 0x0D000, okPorts [0x4B], takePorts, presentPorts 0x0D000, failPorts 1]) := by
  intro h
  have := h 5 _ rfl rfl
  revert this
  decide
/-- For NothingStartsByItself. -/
theorem witness_nothing_starts :
    (idleWith [okPorts [1], takePorts]).phase = .idle ∧
      ∀ q ∈ (idleWith [okPorts [1], takePorts]).inputs.take 2, q.cmdValid = false := by decide
/-- For EveryStateHasAStep: a state in XFER that lacks `cmd_op`, and a read that lacks `in_len`, as a transfer succeeds. -/
theorem witness_missing_values :
    (portsNow { idleWith [okPorts [0x4B]] with phase := .xfer }).busDone = true ∧
      (portsNow { idleWith [okPorts [0x4B]] with phase := .xfer }).busFail = false ∧
      ({ idleWith [okPorts [0x4B]] with phase := .xfer } : State).cmdOp = none ∧
      ({ xferWith (.rdreg 1 0) [okPorts [0x4B]] with inLen := none } : State).cmdOp = some .rdreg ∧
      opIsRead .rdreg = true := by decide
/-- For LatchesAreNotReadAgain: each way in which the premises hold. -/
theorem witness_latches :
    (xferWith (.rdreg 1 0) []).phase = .xfer ∧ (portsNow (xferWith (.rdreg 1 0) [])).busDone = false ∧
      (portsNow (xferWith (.rdreg 1 0) [failPorts 3])).busFail = true ∧
      (failedWith (.rdreg 1 0) 3 []).phase = .resp := by decide
/-- For NoErrorLingers. -/
theorem witness_no_error_lingers :
    (failedWith (.rdcalh 0xE1 0) 3 [takePorts, presentPorts 0x0D000]).phase = .resp ∧
      (failedWith (.rdcalh 0xE1 0) 3 [takePorts, presentPorts 0x0D000]).rspStatus = some .fail ∧
      (failedWith (.rdcalh 0xE1 0) 3 [takePorts, presentPorts 0x0D000]).inputs = [takePorts, presentPorts 0x0D000] ∧
      takePorts.rspReady = true ∧ (presentPorts 0x0D000).cmdValid = true ∧
      decode (presentPorts 0x0D000).cmdWord = .cmd (.rdreg 0xD0 0x00) := by decide
/-- For StepRunsTheDecodedCommand, the other three clauses. -/
theorem witness_step_runs :
    (xferWith (.rdreg 1 0) []).cmdOp = some (opOf (.rdreg 1 0)) ∧ (xferWith (.rdreg 1 0) []).phase = .xfer ∧
      (failedWith (.rdreg 1 0) 3 []).phase = .resp ∧ decodeTableWord 24 0x1F700 = some (.rdmeas 0xF7 0x00) := by decide

end Sys2Proof.Tests
end

section
/-!
SUPPORT. The decoder on a word written by its fields (30_encoding.md R81, R82, R97, R103), and the statement that it is
total and drops no bit.
-/

namespace Sys2Proof

open Machine

theorem encode_eq_wordOf (i : Instr) : encode i = wordOf (opCode (opOf i)) (addrOf i) (valOf i) := by
  cases i <;> rfl

@[simp] theorem encode_instrOf (op : Op) (addr val : Byte) : encode (instrOf op addr val) = wordOf (opCode op) addr val := by
  simp [encode_eq_wordOf]

/-- The decoder reads the table of R82. -/
theorem decodeFields_opCode (op : Op) (addr val : Byte) :
    decodeFields ⟨opCode op, addr, val⟩ = .cmd (instrOf op addr val) := by
  cases op <;> rfl

@[simp] theorem decode_wordOf_opCode (op : Op) (addr val : Byte) :
    decode (wordOf (opCode op) addr val) = .cmd (instrOf op addr val) := by
  rw [decode, fieldsOf_wordOf, decodeFields_opCode]

/-- The five codes of R82 are all there are up to 0b100. -/
theorem exists_opCode_eq {op : BitVec 3} (h : op.toNat ≤ 4) : ∃ o, opCode o = op := by
  rcases op_cases op with rfl | rfl | rfl | rfl | rfl | hop
  · exact ⟨.rdreg, rfl⟩
  · exact ⟨.rdmeas, rfl⟩
  · exact ⟨.rdcalpt, rfl⟩
  · exact ⟨.rdcalh, rfl⟩
  · exact ⟨.wrreg, rfl⟩
  · omega

/-- A code above 0b100 is refused by name (R97). -/
theorem decodeFields_reserved {c : CmdFields} (h : 4 < c.op.toNat) : decodeFields c = .reservedOp c.op := by
  rcases decodeFields_cases c.op c.addr c.val with
    ⟨hop, -⟩ | ⟨hop, -⟩ | ⟨hop, -⟩ | ⟨hop, -⟩ | ⟨hop, -⟩ | ⟨-, hd⟩
  case inr.inr.inr.inr.inr => exact hd
  all_goals simp [hop] at h

/-- Settles O2: a word is its three fields put together, so a code the table has gives back its command, and re-encoding the
word. -/
theorem decodeIsTotalAndDropsNoBit : Obligations.DecodeIsTotalAndDropsNoBit := by
  intro w
  refine ⟨fun h => ?_, fun h => decodeFields_reserved (c := fieldsOf w) h⟩
  obtain ⟨op, hop⟩ := exists_opCode_eq h
  have hw : wordOf (opCode op) (fieldsOf w).addr (fieldsOf w).val = w := by
    rw [hop]
    exact wordOf_fieldsOf w
  refine ⟨instrOf op (fieldsOf w).addr (fieldsOf w).val, ?_, ?_, addrOf_instrOf .., valOf_instrOf .., ?_⟩
  · rw [← decode_wordOf_opCode, hw]
  · rw [opOf_instrOf, hop]
  · rw [encode_instrOf, hw]

end Sys2Proof
end

section
/-!
SUPPORT. The address byte bit by bit (30_encoding.md R84 to R87), where ACCEPT puts it, and the statements about it.
-/

namespace Sys2Proof.Machine

/-! The encoder's bits. -/

theorem getLsbD_readMark (k : Nat) : Config.readMark.getLsbD k = decide (k = 7) := by
  have h : Config.readMark = BitVec.twoPow 8 7 := rfl
  rw [h, BitVec.getLsbD_twoPow]
  simp [eq_comm]

theorem getLsbD_writeMask (k : Nat) : Config.writeMask.getLsbD k = decide (k < 7) := by
  have h : Config.writeMask = BitVec.ofNat 8 (2 ^ 7 - 1) := rfl
  rw [h, BitVec.getLsbD_ofNat, Nat.testBit_two_pow_sub_one, ← Bool.decide_and]
  exact decide_eq_decide.2 (by omega)

/-- R85, bit by bit. -/
theorem getLsbD_readAddrByte (a : Byte) (k : Nat) :
    (readAddrByte a).getLsbD k = (a.getLsbD k || decide (k = 7)) := by
  rw [readAddrByte, BitVec.getLsbD_or, getLsbD_readMark]

/-- R86, bit by bit. -/
theorem getLsbD_writeAddrByte (a : Byte) (k : Nat) :
    (writeAddrByte a).getLsbD k = (a.getLsbD k && decide (k < 7)) := by
  rw [writeAddrByte, BitVec.getLsbD_and, getLsbD_writeMask]

theorem readAddrByte_bit_seven (a : Byte) : (readAddrByte a).getLsbD 7 = true := by
  rw [getLsbD_readAddrByte, decide_eq_true rfl, Bool.or_true]

theorem writeAddrByte_bit_seven (a : Byte) : (writeAddrByte a).getLsbD 7 = false := by
  rw [getLsbD_writeAddrByte, decide_eq_false (Nat.lt_irrefl 7), Bool.and_false]

theorem readAddrByte_low_bits (a : Byte) {k : Nat} (hk : k < 7) : (readAddrByte a).getLsbD k = a.getLsbD k := by
  simp [getLsbD_readAddrByte, hk.ne]

theorem writeAddrByte_low_bits (a : Byte) {k : Nat} (hk : k < 7) : (writeAddrByte a).getLsbD k = a.getLsbD k := by
  simp [getLsbD_writeAddrByte, hk]

/-- The read encoder sets bit 7, whatever it was (R87). -/
theorem readAddrByte_xor_readMark (a : Byte) : readAddrByte (a ^^^ Config.readMark) = readAddrByte a := by
  apply BitVec.eq_of_getLsbD_eq
  intro k _
  rw [getLsbD_readAddrByte, getLsbD_readAddrByte, BitVec.getLsbD_xor, getLsbD_readMark]
  by_cases hk : k = 7 <;> simp [hk]

/-- The write encoder clears bit 7, whatever it was (R87). -/
theorem writeAddrByte_xor_readMark (a : Byte) : writeAddrByte (a ^^^ Config.readMark) = writeAddrByte a := by
  apply BitVec.eq_of_getLsbD_eq
  intro k _
  rw [getLsbD_writeAddrByte, getLsbD_writeAddrByte, BitVec.getLsbD_xor, getLsbD_readMark]
  by_cases hk : k = 7 <;> simp [hk]

/-! The address byte of a frame. -/

/-- The first outbound byte of a frame is the encoded address, by the command's kind (R89, R90). -/
theorem frame_out_zero (p : Params) (i : Instr) :
    (frame p i).out[0]? =
      some (if opIsRead (opOf i) = true then readAddrByte (addrOf i) else writeAddrByte (addrOf i)) := by
  cases i <;> rfl

/-- `addr` and `addr ^ 0x80` give the same frame (R87). -/
theorem frame_xor_readMark (p : Params) (i : Instr) :
    frame p (instrOf (opOf i) (addrOf i ^^^ Config.readMark) (valOf i)) = frame p i := by
  cases i with
  | rdreg addr val | rdmeas addr val | rdcalpt addr val | rdcalh addr val =>
    simp only [frame, instrOf, opOf, addrOf, readFrame, readAddrByte_xor_readMark]
  | wrreg addr val =>
    simp only [frame, instrOf, opOf, addrOf, valOf, writeFrame, writeAddrByte_xor_readMark]

/-- For one bus request, ACCEPT puts the address in its latch and nowhere else (40_sequencer.md R112). -/
theorem accept_addr (op : Op) (addr addr' val : Byte) (req : BusRequest) (s : State) :
    accept op addr' val req s = { accept op addr val req s with cmdAddr := some addr' } := rfl

/-- Settles O5, by the bits of the read encoder. -/
theorem readAddressByteIsMarked : Obligations.ReadAddressByteIsMarked := by
  intro i s hidle hread
  refine ⟨_, readAddrByte (addrOf i), exec_idle hidle, ?_, rfl, readAddrByte_bit_seven _,
    fun k hk => readAddrByte_low_bits _ hk⟩
  rw [accept_outBuf0, frame_out_zero, if_pos hread]

/-- Settles O6, by the bits of the write encoder. -/
theorem writeAddressByteIsUnmarked : Obligations.WriteAddressByteIsUnmarked := by
  intro addr val s hidle
  exact ⟨_, writeAddrByte addr, exec_idle hidle, rfl, rfl, writeAddrByte_bit_seven _,
    fun k hk => writeAddrByte_low_bits _ hk, rfl⟩

/-- Settles O8: the two addresses have one frame, and what ACCEPT does with it does not depend on the address but for the
latch. -/
theorem addressBitSevenNeverMatters : Obligations.AddressBitSevenNeverMatters := by
  intro i s hidle
  refine ⟨_, exec_idle hidle, ?_, _, frame_out_zero s.params i, ?_, rfl⟩
  · have hframe : frame s.params (instrOf (opOf i) (addrOf i ^^^ 0x80) (valOf i)) = frame s.params i :=
      frame_xor_readMark s.params i
    rw [exec_idle hidle, hframe, opOf_instrOf, addrOf_instrOf, valOf_instrOf, accept_addr]
  · by_cases hread : opIsRead (opOf i) = true
    · rw [if_pos hread]
      exact iff_of_true (readAddrByte_bit_seven _) hread
    · rw [if_neg hread]
      exact iff_of_false (ne_true_of_eq_false (writeAddrByte_bit_seven _)) hread

end Sys2Proof.Machine
end

section
/-!
SUPPORT. COMPLETE and RETIRE by what the ports show: what each answers, what it leaves, and the response the issuer then reads
(40_sequencer.md R113 to R116).
-/

namespace Sys2Proof.Machine

/-! The shared operations, by case. -/

theorem completeStep_silent {d : State → State} {s : State} (hd : (portsNow s).busDone = false) :
    completeStep d s = .next s := by
  simp [completeStep, hd]

theorem completeStep_failed {d : State → State} {s : State} (hd : (portsNow s).busDone = true)
    (hf : (portsNow s).busFail = true) : completeStep d s = .next (raiseBusFail (portsNow s).busErr s) := by
  simp [completeStep, hd, hf]

theorem completeStep_succeeded {d : State → State} {s : State} (hd : (portsNow s).busDone = true)
    (hf : (portsNow s).busFail = false) : completeStep d s = .next (d s) := by
  simp [completeStep, hd, hf]

theorem retireStep_held {s : State} (hr : (portsNow s).rspReady = false) : retireStep s = .next s := by
  simp [retireStep, hr]

theorem retireStep_taken {s : State} (hr : (portsNow s).rspReady = true) : retireStep s = .next (retire s) := by
  simp [retireStep, hr]

theorem deliverOf_read {op : Op} {s : State} {n : Nat} (hread : opIsRead op = true) (hn : s.inLen = some n) :
    deliverOf op s = captureRead n s := by
  simp [deliverOf, deliverRead, hread, hn]

theorem deliverOf_unread {op : Op} {s : State} (hread : opIsRead op = true) (hn : s.inLen = none) :
    deliverOf op s = completeUnread s := by
  simp [deliverOf, deliverRead, hread, hn]

theorem deliverOf_write {op : Op} {s : State} (hwrite : opIsRead op = false) : deliverOf op s = ackWrite s := by
  simp [deliverOf, hwrite]

/-- A delivery writes `phase` and the response registers, and its outcome is OK. -/
theorem deliverOf_frame (op : Op) (s : State) :
    deliverOf op s =
      { s with phase := .resp, rspStatus := some .ok, rspErr := none, inBuf := (deliverOf op s).inBuf } := by
  rcases deliverOf_cases op s with ⟨n, -, -, h⟩ | ⟨-, -, h⟩ | ⟨-, h⟩ <;> rw [h] <;> rfl

@[simp] theorem deliverLatched_phase (s : State) : (deliverLatched s).phase = .resp := by
  rcases ho : s.cmdOp with _ | op
  · rw [deliverLatched_none ho, completeUnread_phase]
  · rw [deliverLatched_some ho, deliverOf_frame]

/-! `exec` in XFER. -/

/-- In XFER a command waits, changing nothing, or ends the transfer, writing `phase` and the response registers alone
(R113 to R115). -/
theorem exec_xfer_frame {i : Instr} {s t : State} (hp : s.phase = .xfer) (h : exec i s = .next t) :
    t = s ∨ ∃ status err cells,
      t = { s with phase := .resp, rspStatus := some status, rspErr := err, inBuf := cells } := by
  rw [exec_xfer hp] at h
  rcases completeStep_cases (deliverOf (opOf i)) s with ⟨-, he⟩ | ⟨-, -, he⟩ | ⟨-, -, he⟩ <;> rw [he] at h <;> cases h
  · exact .inl rfl
  · exact .inr ⟨_, _, _, rfl⟩
  · exact .inr ⟨_, _, _, deliverOf_frame ..⟩

/-! The response. -/

theorem response_raiseBusFail (e : Nat) (s : State) :
    response (raiseBusFail e s) = some (.err (.transport (.bus e))) := rfl

theorem response_ackWrite {s : State} {op : Op} (ho : s.cmdOp = some op) (hwrite : opIsRead op = false) :
    response (ackWrite s) = some .okWrite := by
  simp [response, ho, hwrite]

/-- After a read that succeeded the issuer reads the inbound bytes (R114). -/
theorem response_captureRead {s : State} {op : Op} (ho : s.cmdOp = some op) (hread : opIsRead op = true)
    (hroom : inLength s.params op ≤ s.inBuf.length) :
    response (captureRead (inLength s.params op) s) =
      some (.okRead (inboundBytes (inLength s.params op) (portsNow s))) := by
  simp [response, ho, hread, captureCells_take (inboundBytes_length ..) hroom]

/-- With room for `n` bytes, the cells below `n` are the inbound bytes in their positions. -/
theorem captureRead_inBuf_below {n k : Nat} {s : State} (hroom : n ≤ s.inBuf.length) (hk : k < n) :
    (captureRead n s).inBuf[k]? = some (inboundBytes n (portsNow s))[k]? := by
  rw [captureRead_inBuf, captureCells_getElem?, inboundBytes_length, if_pos ⟨hk, by omega⟩]

theorem captureRead_inBuf_above {n k : Nat} {s : State} (hk : n ≤ k) :
    (captureRead n s).inBuf[k]? = s.inBuf[k]? := by
  rw [captureRead_inBuf, captureCells_getElem?, inboundBytes_length, if_neg (by omega)]

/-! The statements. -/

/-- Settles O14: a command in XFER waits, or leaves XFER and writes the response registers alone. -/
theorem requestIsHeldInXfer : Obligations.RequestIsHeldInXfer := by
  intro i s hp
  refine ⟨by simp [outputs, hp], fun hd => by rw [exec_xfer hp, completeStep_silent hd], fun t ht => ?_⟩
  rcases exec_xfer_frame hp ht with rfl | ⟨status, err, cells, rfl⟩
  · exact ⟨rfl, rfl, rfl, rfl, rfl, fun _ => rfl⟩
  · exact ⟨rfl, rfl, rfl, rfl, rfl, fun hstay => by cases hstay⟩

/-- Settles O15: a success is delivered by the command's kind, and the buffer has room for the inbound length. -/
theorem completeAfterSuccess : Obligations.CompleteAfterSuccess := by
  rintro i s n hp ho rfl hn hlen hd hf
  have hroom : inLength s.params (opOf i) ≤ s.inBuf.length := hlen ▸ inLength_le_maxLen ..
  refine ⟨deliverOf (opOf i) s, _, inboundBytes_length _ (portsNow s), ?_, answerOn_eq_ok.2 ⟨hd, hf, rfl⟩,
    fun k hk hb => inboundBytes_getElem? hk hb, deliverOf_frame .., fun hread => ?_, fun hwrite => ?_⟩
  · rw [exec_xfer hp, completeStep_succeeded hd hf]
  · rw [deliverOf_read hread hn]
    exact ⟨fun k hk => captureRead_inBuf_below hroom hk, fun k hk => captureRead_inBuf_above hk,
      response_captureRead ho hread hroom⟩
  · rw [deliverOf_write hwrite]
    exact ⟨rfl, response_ackWrite ho hwrite⟩

/-- Settles O16: every command's failure is `raiseBusFail`, and the word is the one of the definition. -/
theorem completeAfterFailure : Obligations.CompleteAfterFailure := by
  refine ⟨fun i s hp hd hf => ?_, fun errW e => rfl, by decide⟩
  exact ⟨raiseBusFail (portsNow s).busErr s, by rw [exec_xfer hp, completeStep_failed hd hf], rfl,
    response_raiseBusFail ..⟩

/-- Settles O17: in RESP every step is `retireStep`. -/
theorem retireEffect : Obligations.RetireEffect := by
  intro s hp
  refine ⟨fun hr => ⟨?_, fun i => ?_⟩, fun hr => ⟨?_, fun i => ?_⟩⟩
  · rw [step_resp hp, retireStep_taken hr]
    rfl
  · rw [exec_resp hp, retireStep_taken hr]
    rfl
  · rw [step_resp hp, retireStep_held hr]
    rfl
  · rw [exec_resp hp, retireStep_held hr]

end Sys2Proof.Machine
end

section
/-!
SUPPORT. `step` by what the ports show, the runs that only wait, and the statements about `step` and its runs
(40_sequencer.md R117, R120, R121).
-/

namespace Sys2Proof.Machine

/-! `step`, row by row of the phase table. -/

theorem presented_eq_none {s : State} :
    presented s = none ↔ ¬ ∃ i, (portsNow s).cmdValid = true ∧ decode (portsNow s).cmdWord = .cmd i := by
  simp only [Option.eq_none_iff_forall_ne_some, ne_eq, presented_eq_some, not_exists]

theorem step_xfer_silent {s : State} (hp : s.phase = .xfer) (hd : (portsNow s).busDone = false) :
    step s = .next (tick s) := by
  rw [step_xfer hp, completeStep_silent hd, afterTick]

/-- Every answer of the bus, success or failure, ends the transfer. -/
theorem step_xfer_answered {s t : State} (hp : s.phase = .xfer) (hd : (portsNow s).busDone = true)
    (h : step s = .next t) : t.phase = .resp := by
  rw [step_xfer hp] at h
  rcases completeStep_cases deliverLatched s with ⟨hd', -⟩ | ⟨-, -, he⟩ | ⟨-, -, he⟩
  · simp [hd] at hd'
  · rw [he] at h
    cases h
    rfl
  · rw [he] at h
    cases h
    exact deliverLatched_phase s

theorem step_resp_held {s : State} (hp : s.phase = .resp) (hr : (portsNow s).rspReady = false) :
    step s = .next (tick s) := by
  rw [step_resp hp, retireStep_held hr, afterTick]

theorem step_resp_taken {s : State} (hp : s.phase = .resp) (hr : (portsNow s).rspReady = true) :
    step s = .next (tick (retire s)) := by
  rw [step_resp hp, retireStep_taken hr, afterTick]

/-- Settles O18, row by row. -/
theorem phaseTable : Obligations.PhaseTable := by
  intro s t h
  refine ⟨fun hp => ⟨fun ⟨i, hi⟩ => ?_, fun hno => ?_⟩, fun hp => ⟨fun hd => step_xfer_answered hp hd h, fun hd => ?_⟩,
    fun hp => ⟨fun hr => ?_, fun hr => ?_⟩⟩
  · rw [step_idle_some hp (presented_eq_some.2 hi)] at h
    cases h
    rfl
  · rw [step_idle_none hp (presented_eq_none.2 hno)] at h
    cases h
    rfl
  · rw [step_xfer_silent hp hd] at h
    cases h
    rfl
  · rw [step_resp_taken hp hr] at h
    cases h
    rfl
  · rw [step_resp_held hp hr] at h
    cases h
    rfl

/-! Waiting. -/

/-- What holds of the inputs to come, and of the silent ports past their end, holds of the ports in this step and of the
inputs after it. -/
theorem forall_inputs_take_succ {Q : Ports → Prop} {s : State} {k : Nat} (hquiet : Q quietPorts)
    (h : ∀ q ∈ s.inputs.take (k + 1), Q q) : Q (portsNow s) ∧ ∀ q ∈ (tick s).inputs.take k, Q q := by
  rcases hi : s.inputs with _ | ⟨q, rest⟩
  · simp [portsNow_nil hi, hi, hquiet]
  · rw [hi, List.take_succ_cons, List.forall_mem_cons] at h
    rwa [portsNow_cons hi, tick_inputs, hi, List.tail_cons]

/-- If in the phase `p` a step on ports that satisfy `Q` only waits, so does a run for as long as the ports satisfy `Q`. -/
theorem run_waits {Q : Ports → Prop} {p : Phase} (hquiet : Q quietPorts)
    (hstep : ∀ u : State, u.phase = p → Q (portsNow u) → step u = .next (tick u)) :
    ∀ (k : Nat) (s : State), s.phase = p → (∀ q ∈ s.inputs.take k, Q q) →
      Host.Core.run Sys2Proof.core k s = .next { s with inputs := s.inputs.drop k }
  | 0, _, _, _ => rfl
  | k + 1, s, hp, h => by
    obtain ⟨hnow, hrest⟩ := forall_inputs_take_succ hquiet h
    rw [run_succ (hstep s hp hnow), run_waits hquiet hstep k (tick s) hp hrest, tick_inputs, List.drop_tail]
    rfl

/-- Settles O20: a silent bus is a wait in XFER. -/
theorem silentBusHangs : Obligations.SilentBusHangs := by
  intro k s hp hsilent
  refine ⟨_, run_waits (Q := (·.busDone = false)) rfl (fun _ => step_xfer_silent) k s hp hsilent, rfl, ?_⟩
  simp [outputs, hp]

/-! A command presented early. -/

theorem tick_raiseBusFail (e : Nat) (s : State) : tick (raiseBusFail e s) = raiseBusFail e (tick s) := rfl

theorem tick_retire (s : State) : tick (retire s) = retire (tick s) := rfl

theorem tick_ackWrite (s : State) : tick (ackWrite s) = ackWrite (tick s) := rfl

theorem tick_completeUnread (s : State) : tick (completeUnread s) = completeUnread (tick s) := rfl

theorem tick_captureRead (n : Nat) (s : State) :
    tick (captureRead n s) =
      { tick s with
        phase := .resp
        inBuf := captureCells (inboundBytes n (portsNow s)) s.inBuf
        rspStatus := some .ok
        rspErr := none } := rfl

theorem xfer_or_resp_of_ne_idle {p : Phase} (h : p ≠ .idle) : p = .xfer ∨ p = .resp := by
  cases p with
  | idle => exact absurd rfl h
  | xfer => exact .inl rfl
  | resp => exact .inr rfl

/-! Two states that `tick` makes equal differ in this step's inputs alone; below, these differ in the command channel alone. -/

section

variable {s s' : State} {v : Bool} {w : CmdWord} (htick : tick s' = tick s)
  (hports : portsNow s' = { portsNow s with cmdValid := v, cmdWord := w })

include htick hports

/-- Delivering does not look at the command channel. -/
theorem tick_deliverLatched_cmd : tick (deliverLatched s') = tick (deliverLatched s) := by
  have hop : s'.cmdOp = s.cmdOp := by simpa using congrArg State.cmdOp htick
  have hlen : s'.inLen = s.inLen := by simpa using congrArg State.inLen htick
  have hbuf : s'.inBuf = s.inBuf := by simpa using congrArg State.inBuf htick
  have hunread : tick (completeUnread s') = tick (completeUnread s) := by
    rw [tick_completeUnread, tick_completeUnread, htick]
  rcases ho : s.cmdOp with _ | op
  · rwa [deliverLatched_none ho, deliverLatched_none (hop.trans ho)]
  rw [deliverLatched_some ho, deliverLatched_some (hop.trans ho)]
  rcases hread : opIsRead op
  · rw [deliverOf_write hread, deliverOf_write hread, tick_ackWrite, tick_ackWrite, htick]
  rcases hn : s.inLen with _ | n
  · rwa [deliverOf_unread hread hn, deliverOf_unread hread (hlen.trans hn)]
  · rw [deliverOf_read hread hn, deliverOf_read hread (hlen.trans hn), tick_captureRead, tick_captureRead, htick, hports,
      hbuf]
    rfl

/-- In XFER a step does not look at the command channel (R121). -/
theorem step_xfer_cmd (hp : s.phase = .xfer) : step s' = step s := by
  have hdone : (portsNow s').busDone = (portsNow s).busDone := by rw [hports]
  have hfail : (portsNow s').busFail = (portsNow s).busFail := by rw [hports]
  have herr : (portsNow s').busErr = (portsNow s).busErr := by rw [hports]
  have hphase : s'.phase = .xfer := by simpa [hp] using congrArg State.phase htick
  rw [step_xfer hp, step_xfer hphase]
  rcases completeStep_cases deliverLatched s with ⟨hd, he⟩ | ⟨hd, hf, he⟩ | ⟨hd, hf, he⟩ <;> rw [he]
  · rw [completeStep_silent (hdone.trans hd), afterTick, afterTick, htick]
  · rw [completeStep_failed (hdone.trans hd) (hfail.trans hf), herr, afterTick, afterTick, tick_raiseBusFail,
      tick_raiseBusFail, htick]
  · rw [completeStep_succeeded (hdone.trans hd) (hfail.trans hf), afterTick, afterTick,
      tick_deliverLatched_cmd htick hports]

/-- In RESP a step does not look at the command channel (R121). -/
theorem step_resp_cmd (hp : s.phase = .resp) : step s' = step s := by
  have hready : (portsNow s').rspReady = (portsNow s).rspReady := by rw [hports]
  have hphase : s'.phase = .resp := by simpa [hp] using congrArg State.phase htick
  rw [step_resp hp, step_resp hphase]
  rcases retireStep_cases s with ⟨hr, he⟩ | ⟨hr, he⟩ <;> rw [he]
  · rw [retireStep_held (hready.trans hr), afterTick, afterTick, htick]
  · rw [retireStep_taken (hready.trans hr), afterTick, afterTick, tick_retire, tick_retire, htick]

end

/-- A command still presented after RETIRE is accepted then, and the two steps do no more. -/
theorem run_retire_accept {s : State} {q q' : Ports} {rest : List Ports} {i : Instr} (hp : s.phase = .resp)
    (hin : s.inputs = q :: q' :: rest) (hr : q.rspReady = true) (hv : q'.cmdValid = true)
    (hw : decode q'.cmdWord = .cmd i) :
    Host.Core.run Sys2Proof.core 2 s =
      .next (tick (accept (opOf i) (addrOf i) (valOf i) (frame s.params i) (tick (retire s)))) := by
  have htaken : (portsNow s).rspReady = true := by rwa [portsNow_cons hin]
  have hports : portsNow (tick (retire s)) = q' := portsNow_cons (rest := rest) (by simp [hin])
  have hpres : presented (tick (retire s)) = some i := presented_eq_some.2 (by rw [hports]; exact ⟨hv, hw⟩)
  rw [run_succ (step_resp_taken hp htaken), run_succ (step_idle_some rfl hpres)]
  rfl

/-- Settles O21: COMPLETE and RETIRE do not look at the command channel, and RETIRE leads to IDLE, where the word is
accepted. -/
theorem earlyCommandWaits : Obligations.EarlyCommandWaits := by
  refine ⟨fun s q rest v w hbusy => ?_, fun s q q' rest i hp hin hr hv hw => ?_⟩
  · refine ⟨by simp [outputs, hbusy], ?_⟩
    rcases xfer_or_resp_of_ne_idle hbusy with hp | hp
    · exact step_xfer_cmd rfl rfl hp
    · exact step_resp_cmd rfl rfl hp
  · exact ⟨_, run_retire_accept hp hin hr hv hw, rfl, inFlight_eq_some.2 ⟨rfl, rfl, rfl⟩, rfl, by simp [hin]⟩

end Sys2Proof.Machine
end

section
/-!
SUPPORT. A command from its ACCEPT to the bus's answer: the request it puts on the bus channel, what either answer leaves, and
the statements about the reads (41_read.md R130 to R136).
-/

namespace Sys2Proof.Machine

/-! The request. -/

/-- The frame of a read is the marked address byte and the command's own inbound length (R89, R130). -/
theorem frame_read {p : Params} {i : Instr} (hread : opIsRead (opOf i) = true) :
    frame p i = readFrame (addrOf i) (inLength p (opOf i)) := by
  cases i with
  | rdreg | rdmeas | rdcalpt | rdcalh => rfl
  | wrreg => cases hread

/-- What stands on the bus channel after ACCEPT is the frame of the accepted command (R93, R112). -/
theorem busRequest_accept (i : Instr) (s : State) :
    busRequest (accept (opOf i) (addrOf i) (valOf i) (frame s.params i) s) = some (frame s.params i) := by
  have hout : outboundBytes (accept (opOf i) (addrOf i) (valOf i) (frame s.params i) s) = some (frame s.params i).out :=
    outboundBytes_frame (by rw [accept_outLen, frame_out_length]) rfl rfl
  simp only [busRequest, accept_phase, hout, accept_inLen]

/-! The answer. -/

/-- In XFER every command answers a failure by raising `BusFail` (R115). -/
theorem exec_xfer_failed {i : Instr} {s : State} (hp : s.phase = .xfer) (hd : (portsNow s).busDone = true)
    (hf : (portsNow s).busFail = true) : exec i s = .next (raiseBusFail (portsNow s).busErr s) := by
  rw [exec_xfer hp, completeStep_failed hd hf]

/-- In XFER a read answers a success by capturing `in_len` bytes (R114). -/
theorem exec_xfer_read {i : Instr} {s : State} {n : Nat} (hp : s.phase = .xfer) (hread : opIsRead (opOf i) = true)
    (hn : s.inLen = some n) (hd : (portsNow s).busDone = true) (hf : (portsNow s).busFail = false) :
    exec i s = .next (captureRead n s) := by
  rw [exec_xfer hp, completeStep_succeeded hd hf, deliverOf_read hread hn]

/-- No cell of the buffer that ACCEPT and a failure leave holds a value (R28, R41). -/
theorem eq_none_of_mem_emptyBuffer {p : Params} {c : Option Byte} (h : c ∈ emptyBuffer p) : c = none :=
  List.eq_of_mem_replicate h

/-! The statements. -/

/-- The four rows of the read table are the commands that read, each with its inbound length (R82, R91). -/
theorem read_row {i : Instr} {n : Nat} {p : Params}
    (h : (∃ a v, i = .rdreg a v) ∧ n = 1 ∨ (∃ a v, i = .rdmeas a v) ∧ n = p.lenMeas ∨
      (∃ a v, i = .rdcalpt a v) ∧ n = p.lenCalpt ∨ (∃ a v, i = .rdcalh a v) ∧ n = p.lenCalh) :
    opIsRead (opOf i) = true ∧ n = inLength p (opOf i) := by
  rcases h with ⟨⟨a, v, rfl⟩, rfl⟩ | ⟨⟨a, v, rfl⟩, rfl⟩ | ⟨⟨a, v, rfl⟩, rfl⟩ | ⟨⟨a, v, rfl⟩, rfl⟩ <;>
    exact ⟨rfl, rfl⟩

/-- Settles O27: ACCEPT shows the read frame and empties the buffer, which has room for the inbound length; a success is
captured into it, a failure raises `BusFail`. -/
theorem readsFollowTheTemplate : Obligations.ReadsFollowTheTemplate := by
  intro i n s hidle hrow
  obtain ⟨hread, rfl⟩ := read_row hrow
  have hframe : frame s.params i = ⟨[addrOf i ||| 0x80], inLength s.params (opOf i)⟩ := frame_read hread
  refine ⟨_, exec_idle hidle, rfl, by rw [busRequest_accept, hframe], by rw [accept_log, hframe],
    fun q rest hd => ⟨fun hf => ?_, fun hf => ?_⟩⟩
  · have hroom : inLength s.params (opOf i) ≤ (emptyBuffer s.params).length :=
      (inLength_le_maxLen ..).trans_eq (emptyBuffer_length _).symm
    have hlen := inboundBytes_length (inLength s.params (opOf i)) q
    exact ⟨inboundBytes _ q, hlen, answerOn_eq_ok.2 ⟨hd, hf, rfl⟩, fun k hk hb => inboundBytes_getElem? hk hb,
      _, exec_xfer_read rfl hread (congrArg some (frame_n ..)) hd hf, rfl, rfl, captureCells_take hlen hroom,
      response_captureRead rfl hread hroom, rfl⟩
  · exact ⟨_, exec_xfer_failed rfl hd hf, rfl, rfl, response_raiseBusFail .., fun _ => eq_none_of_mem_emptyBuffer, rfl⟩

/-- Settles O26: RDREG is the read template with one byte, the word {0b000, addr, val} its encoding. -/
theorem rdregReadsOneByte : Obligations.RdregReadsOneByte := by
  intro addr val s hidle
  obtain ⟨t, haccept, hphase, hreq, hlog, hanswer⟩ :=
    readsFollowTheTemplate (.rdreg addr val) 1 s hidle (.inl ⟨⟨addr, val, rfl⟩, rfl⟩)
  refine ⟨decode_wordOf_opCode .rdreg addr val, t, haccept, hphase, hreq, hlog,
    fun q rest hd => ⟨fun hf => ?_, fun hf => ?_⟩⟩
  · obtain ⟨bytes, hlen, hans, hbytes, u, hexec, hresp, hok, hcells, hread, hsame⟩ := (hanswer q rest hd).1 hf
    obtain ⟨b, rfl⟩ := List.length_eq_one_iff.1 hlen
    refine ⟨b, hlen, hans, fun c cs hin => ?_, u, hexec, hresp, hok, ?_, hread, hsame⟩
    · simpa [hin] using hbytes 0 Nat.one_pos
    · rw [← List.getElem?_take_of_lt Nat.one_pos, hcells]
      rfl
  · obtain ⟨u, hexec, hresp, hfail, herr, -, hsame⟩ := (hanswer q rest hd).2 hf
    exact ⟨u, hexec, hresp, hfail, herr, hsame⟩

end Sys2Proof.Machine
end

section
/-!
SUPPORT. The write command from its ACCEPT to the bus's answer, what a step in XFER depends on while a write is in flight, and
the statements about the write (42_write.md R150 to R153).
-/

namespace Sys2Proof.Machine

/-! The answer to a write. -/

/-- In XFER a write answers a success by acknowledging (R114, R151). -/
theorem exec_xfer_write {i : Instr} {s : State} (hp : s.phase = .xfer) (hwrite : opIsRead (opOf i) = false)
    (hd : (portsNow s).busDone = true) (hf : (portsNow s).busFail = false) : exec i s = .next (ackWrite s) := by
  rw [exec_xfer hp, completeStep_succeeded hd hf, deliverOf_write hwrite]

/-- With a write latched, a step in XFER waits, raises `BusFail` or acknowledges (R113 to R115). -/
theorem step_xfer_write {s : State} (hp : s.phase = .xfer) (ho : s.cmdOp = some .wrreg) :
    step s = afterTick (completeStep ackWrite s) := by
  have hdeliver : deliverLatched s = ackWrite s := (deliverLatched_some ho).trans (deliverOf_write rfl)
  rw [step_xfer hp, completeStep_congr hdeliver]

/-! What a step in XFER depends on. -/

/-- Of the ports, a step in XFER looks only at the bus's answer signals, and at what the delivery looks at (R113 to R115). -/
theorem afterTick_completeStep_congr {d : State → State} {s s' : State} (htick : tick s' = tick s)
    (hdone : (portsNow s').busDone = (portsNow s).busDone) (hfail : (portsNow s').busFail = (portsNow s).busFail)
    (herr : (portsNow s').busErr = (portsNow s).busErr) (hdeliver : tick (d s') = tick (d s)) :
    afterTick (completeStep d s') = afterTick (completeStep d s) := by
  rcases completeStep_cases d s with ⟨hd, he⟩ | ⟨hd, hf, he⟩ | ⟨hd, hf, he⟩ <;> rw [he]
  · rw [completeStep_silent (hdone.trans hd), afterTick, afterTick, htick]
  · rw [completeStep_failed (hdone.trans hd) (hfail.trans hf), herr, afterTick, afterTick, tick_raiseBusFail,
      tick_raiseBusFail, htick]
  · rw [completeStep_succeeded (hdone.trans hd) (hfail.trans hf), afterTick, afterTick, hdeliver]

/-- With a write latched, a step in XFER that does not fail leaves the inbound buffer (R114, R151). -/
theorem step_xfer_write_inBuf {s : State} (hp : s.phase = .xfer) (ho : s.cmdOp = some .wrreg) :
    ∃ t, step s = .next t ∧ (t.rspStatus ≠ some .fail → t.inBuf = s.inBuf) := by
  rw [step_xfer_write hp ho]
  rcases completeStep_cases ackWrite s with ⟨-, he⟩ | ⟨-, -, he⟩ | ⟨-, -, he⟩ <;> rw [he]
  · exact ⟨_, rfl, fun _ => rfl⟩
  · exact ⟨_, rfl, fun hstatus => absurd rfl hstatus⟩
  · exact ⟨_, rfl, fun _ => rfl⟩

/-! The statements. -/

/-- Settles O28: ACCEPT shows the write frame and empties the buffer; a success acknowledges and leaves the buffer, a failure
raises `BusFail`. -/
theorem wrregWritesOneByte : Obligations.WrregWritesOneByte := by
  intro addr val s hidle
  refine ⟨decode_wordOf_opCode .wrreg addr val, _, exec_idle hidle, rfl, busRequest_accept (.wrreg addr val) s, rfl,
    fun q rest hd => ⟨fun hf => ?_, fun hf => ?_⟩⟩
  · exact ⟨_, exec_xfer_write rfl rfl hd hf, rfl, rfl, response_ackWrite rfl rfl, fun _ => eq_none_of_mem_emptyBuffer, rfl⟩
  · exact ⟨_, exec_xfer_failed rfl hd hf, rfl, rfl, response_raiseBusFail .., rfl⟩

/-- Settles O29: acknowledging does not look at the ports, and the other two answers do not look at `bus_in`. -/
theorem writeNeverLooksAtInbound : Obligations.WriteNeverLooksAtInbound := by
  intro s q rest bytes hp ho
  have hwrite (ports : List Ports) :
      step { s with inputs := ports } = afterTick (completeStep ackWrite { s with inputs := ports }) :=
    step_xfer_write hp ho
  constructor
  · rw [hwrite, hwrite]
    exact afterTick_completeStep_congr rfl rfl rfl rfl rfl
  · obtain ⟨t, hstep, hbuf⟩ := step_xfer_write_inBuf (s := { s with inputs := q :: rest }) hp ho
    exact ⟨t, hstep, fun _ hok => hbuf (by simp [hok])⟩

end Sys2Proof.Machine
end

section
/-!
SUPPORT. The error-code translator's inverse (60_exceptions.md R165), on the nested error and on the error word.
-/

namespace Sys2Proof.Machine

/-- The translator only wraps the native error (R163 to R165). -/
@[simp] theorem nativeOf_translateError (e : Nat) : nativeOf (translateError e) = e := rfl

theorem translateError_injective : Function.Injective translateError :=
  Function.LeftInverse.injective nativeOf_translateError

/-- The low `ERR_W` bits of the error word are its native field (R96). -/
theorem extractLsb'_errorWord (errW : Nat) (d : DeviceError) :
    (errorWord errW d).extractLsb' 0 errW = BitVec.ofNat errW (nativeOf d) := by
  rw [errorWord, BitVec.extractLsb'_append_eq_right]

/-- `rsp_err[ERR_W-1:0]` is the native error, where it fits (R165). -/
theorem extractLsb'_errorWord_translateError {errW e : Nat} (he : e < 2 ^ errW) :
    ((errorWord errW (translateError e)).extractLsb' 0 errW).toNat = e := by
  rw [extractLsb'_errorWord, nativeOf_translateError, BitVec.toNat_ofNat, Nat.mod_eq_of_lt he]

/-- Native errors that fit have different error words. -/
theorem errorWord_translateError_inj {errW e e' : Nat} (he : e < 2 ^ errW) (he' : e' < 2 ^ errW)
    (h : errorWord errW (translateError e) = errorWord errW (translateError e')) : e = e' := by
  rw [← extractLsb'_errorWord_translateError he, h, extractLsb'_errorWord_translateError he']

/-- Settles O11: `BusFail` delivers the translated error, and `nativeOf`, like the low `ERR_W` bits of the word, is a left
inverse of the translator. -/
theorem noErrorInformationIsLost : Obligations.NoErrorInformationIsLost := by
  refine ⟨fun i s hp hd hf => ?_, fun _ _ h => translateError_injective h, fun errW e e' he he' => ?_⟩
  · exact ⟨_, translateError (portsNow s).busErr, exec_xfer_failed hp hd hf, rfl, nativeOf_translateError _⟩
  · exact ⟨extractLsb'_errorWord_translateError he, errorWord_translateError_inj he he'⟩

end Sys2Proof.Machine
end

section
/-!
SUPPORT. What a step can do to the parameters and the bus log, the marker of every frame, and the statements about reset, idleness
and the marker bit (70_reset_and_hazards.md R190, R191, R200).
-/

namespace Sys2Proof.Machine

/-! The parameters and the log over a step. -/

/-- `ParamsFixed` (R208). -/
theorem step_params {s t : State} (h : step s = .next t) : t.params = s.params := by
  rcases step_cases h with ⟨-, -, rfl⟩ | ⟨_, -, -, rfl⟩ | ⟨-, -, rfl⟩ | ⟨-, -, -, rfl⟩ | ⟨_, _, -, -, -, -, -, -, rfl⟩ |
    ⟨_, -, -, -, -, -, rfl⟩ | ⟨-, -, -, -, rfl⟩ | ⟨-, -, rfl⟩ | ⟨-, -, rfl⟩ <;> rfl

/-- A step leaves the log, or it accepts the presented command and appends the command's frame (R112, R118). -/
theorem step_log {s t : State} (h : step s = .next t) :
    t.log = s.log ∨ ∃ i, s.phase = .idle ∧ presented s = some i ∧ t.log = s.log ++ [frame s.params i] := by
  rcases step_cases h with ⟨-, -, rfl⟩ | ⟨i, hp, hi, rfl⟩ | ⟨-, -, rfl⟩ | ⟨-, -, -, rfl⟩ |
    ⟨_, _, -, -, -, -, -, -, rfl⟩ | ⟨_, -, -, -, -, -, rfl⟩ | ⟨-, -, -, -, rfl⟩ | ⟨-, -, rfl⟩ | ⟨-, -, rfl⟩
  case inr.inl => exact .inr ⟨i, hp, hi, rfl⟩
  all_goals exact .inl rfl

/-! The marker of a frame. -/

@[simp] theorem markerOf_readAddrByte (a : Byte) : markerOf (readAddrByte a) = true := readAddrByte_bit_seven a

@[simp] theorem markerOf_writeAddrByte (a : Byte) : markerOf (writeAddrByte a) = false := writeAddrByte_bit_seven a

theorem markerRight_readFrame (a : Byte) {n : Nat} (hn : 1 ≤ n) : markerRight (readFrame a n) = true :=
  Bool.and_eq_true_iff.2 ⟨markerOf_readAddrByte a, decide_eq_true hn⟩

theorem markerRight_writeFrame (a v : Byte) : markerRight (writeFrame a v) = true := by
  simp [markerRight, writeFrame]

/-- With legal parameters a read asks for at least one byte (R7, R91). -/
theorem inLength_pos {p : Params} {op : Op} (hwf : p.wellFormed = true) (hread : opIsRead op = true) :
    1 ≤ inLength p op := by
  simp only [Params.wellFormed, Bool.and_eq_true, decide_eq_true_eq] at hwf
  obtain ⟨⟨⟨hmeas, hcalpt⟩, hcalh⟩, -⟩ := hwf
  cases op with
  | rdreg => exact le_rfl
  | rdmeas => exact hmeas
  | rdcalpt => exact hcalpt
  | rdcalh => exact hcalh
  | wrreg => cases hread

/-- With legal parameters every command's frame is marked right (R84, R89, R90). -/
theorem markerRight_frame {p : Params} (hwf : p.wellFormed = true) (i : Instr) : markerRight (frame p i) = true := by
  cases i with
  | rdreg | rdmeas | rdcalpt | rdcalh =>
    rw [frame_read rfl]
    exact markerRight_readFrame _ (inLength_pos hwf rfl)
  | wrreg a v => exact markerRight_writeFrame a v

/-! IDLE with nothing presented. -/

/-- In IDLE with no word presented a step only moves on to the next inputs (R117). -/
theorem step_idle_silent {s : State} (hp : s.phase = .idle) (hv : (portsNow s).cmdValid = false) :
    step s = .next (tick s) :=
  step_idle_none hp (by simp [presented, hv])

/-! The statements. -/

/-- Settles O37: the one record a step can add to the log is the frame of a command, and the address byte ACCEPT sends has
the marker of the command's kind. -/
theorem markerBitIsAlwaysRight : Obligations.MarkerBitIsAlwaysRight := by
  refine ⟨fun s t hwf hlog h => ⟨(step_params h).symm ▸ hwf, ?_⟩, fun i s hidle => ?_⟩
  · rcases step_log h with hsame | ⟨i, -, -, happend⟩
    · rwa [hsame]
    · rw [happend, List.forall_mem_append, List.forall_mem_singleton]
      exact ⟨hlog, markerRight_frame hwf i⟩
  · obtain ⟨t, haccept, -, b, hb, hmarker, -⟩ := addressBitSevenNeverMatters i s hidle
    exact ⟨t, b, haccept, hb, hmarker⟩

/-- Settles O41: in IDLE, a step with no command presented is a wait. -/
theorem nothingStartsByItself : Obligations.NothingStartsByItself := by
  intro k s hp hsilent
  refine ⟨run_waits (Q := (·.cmdValid = false)) rfl (fun _ => step_idle_silent) k s hp hsilent, ?_⟩
  simp [outputs, hp]

/-- Settles O40: the handshakes follow from `phase`, and the buffer is the empty one. -/
theorem resetLeaves : Obligations.ResetLeaves := by
  intro p env
  exact ⟨rfl, rfl, rfl, rfl, rfl, rfl, rfl, rfl, emptyBuffer_length p, fun _ => eq_none_of_mem_emptyBuffer, rfl, rfl, rfl,
    rfl, rfl, rfl⟩

end Sys2Proof.Machine
end

section
/-!
SUPPORT. The statements about the decoder, the assembler's words, the address encoder and the error word (30_encoding.md R81 to
R103).
-/

namespace Sys2Proof.Machine

/-! Words. -/

/-- Settles O1: the word of a command is its three fields put together, and the decoder reads the table of R82. -/
theorem decodeInvertsEncode : Obligations.DecodeInvertsEncode := by
  intro i
  refine ⟨by cases i <;> rfl, ?_⟩
  rw [encode_eq_wordOf, decode_wordOf_opCode, instrOf_fields]

/-- Settles O3, by running the decoder on the eleven words. -/
theorem sampleWordsDecode : Obligations.SampleWordsDecode := by
  unfold Obligations.SampleWordsDecode
  decide

/-- Settles O4: a canonical word is the word of the line's command, and its fields are where R81 puts them. -/
theorem canonicalWordsOfLines : Obligations.CanonicalWordsOfLines := by
  refine ⟨fun a v => ⟨?_, ?_, ?_, ?_, ?_⟩, by decide, by decide⟩
  · exact Laws.EncodedFields.rdreg a 0
  · exact Laws.EncodedFields.rdmeas a 0
  · exact Laws.EncodedFields.rdcalpt a 0
  · exact Laws.EncodedFields.rdcalh a 0
  · exact Laws.EncodedFields.wrreg a v

/-! The two encoders on each other's bytes (R88). -/

@[simp] theorem readAddrByte_readAddrByte (a : Byte) : readAddrByte (readAddrByte a) = readAddrByte a := by
  rw [readAddrByte, readAddrByte, BitVec.or_assoc, BitVec.or_self]

@[simp] theorem writeAddrByte_writeAddrByte (a : Byte) : writeAddrByte (writeAddrByte a) = writeAddrByte a := by
  rw [writeAddrByte, writeAddrByte, BitVec.and_assoc, BitVec.and_self]

/-- The write encoder clears the one bit the read encoder sets. -/
@[simp] theorem writeAddrByte_readAddrByte (a : Byte) : writeAddrByte (readAddrByte a) = writeAddrByte a := by
  apply BitVec.eq_of_getLsbD_eq
  intro k _
  rw [getLsbD_writeAddrByte, getLsbD_writeAddrByte, getLsbD_readAddrByte]
  by_cases hk : k = 7 <;> simp [hk]

/-- The read encoder sets the one bit the write encoder clears. -/
@[simp] theorem readAddrByte_writeAddrByte (a : Byte) : readAddrByte (writeAddrByte a) = readAddrByte a := by
  apply BitVec.eq_of_getLsbD_eq
  intro k hk8
  rw [getLsbD_readAddrByte, getLsbD_readAddrByte, getLsbD_writeAddrByte]
  by_cases hk : k = 7
  · simp [hk]
  · simp [hk, show k < 7 by omega]

/-- The two bytes of one address differ in the marker alone. -/
theorem readAddrByte_xor_writeAddrByte (a : Byte) : readAddrByte a ^^^ writeAddrByte a = Config.readMark := by
  apply BitVec.eq_of_getLsbD_eq
  intro k hk8
  rw [BitVec.getLsbD_xor, getLsbD_readAddrByte, getLsbD_writeAddrByte, getLsbD_readMark]
  by_cases hk : k = 7
  · simp [hk]
  · simp [hk, show k < 7 by omega]

/-- Bytes with the same low seven bits select the same register (20_memory.md R53). -/
theorem selectOf_congr {a b : Byte} (h : ∀ k < 7, a.getLsbD k = b.getLsbD k) : selectOf a = selectOf b := by
  apply BitVec.eq_of_getLsbD_eq
  intro k hk
  simp [selectOf, hk, h k hk]

/-- Settles O7, by the bits of the two encoders. -/
theorem encoderLaws : Obligations.EncoderLaws := by
  intro a
  exact ⟨readAddrByte_readAddrByte a, writeAddrByte_writeAddrByte a, writeAddrByte_readAddrByte a,
    readAddrByte_writeAddrByte a, readAddrByte_xor_writeAddrByte a, markerOf_readAddrByte a, markerOf_writeAddrByte a,
    selectOf_congr fun _ => readAddrByte_low_bits a, selectOf_congr fun _ => writeAddrByte_low_bits a⟩

/-! The error word (R96). -/

/-- The two kind fields of the framer's one error are all ones, above the native error. -/
theorem toNat_errorWord_translateError {errW e : Nat} (he : e < 2 ^ errW) :
    (errorWord errW (translateError e)).toNat = 3 * 2 ^ errW + e := by
  have hkinds : (devKind (translateError e) ++ xportKind (translateError e) : BitVec (2 + 1)).toNat = 3 := by
    change (1#2 ++ 1#1).toNat = 3
    decide
  rw [errorWord, BitVec.toNat_append, hkinds, nativeOf_translateError, BitVec.toNat_ofNat, Nat.mod_eq_of_lt he,
    ← Nat.shiftLeft_add_eq_or_of_lt he, Nat.shiftLeft_eq]

/-- Above the native field the error word holds the two kinds. -/
theorem toNat_errorWord_div {errW e : Nat} (he : e < 2 ^ errW) :
    (errorWord errW (translateError e)).toNat / 2 ^ errW = 3 := by
  rw [toNat_errorWord_translateError he, Nat.add_comm, Nat.add_mul_div_right _ _ (Nat.two_pow_pos errW),
    Nat.div_eq_of_lt he]

/-- Settles O10: the number the word is, cut at its fields. -/
theorem errorWordFields : Obligations.ErrorWordFields := by
  intro errW e he
  have hdiv := toNat_errorWord_div he
  refine ⟨?_, ?_, extractLsb'_errorWord_translateError he, toNat_errorWord_translateError he⟩ <;>
    apply BitVec.eq_of_toNat_eq <;> rw [BitVec.extractLsb'_toNat, Nat.shiftRight_eq_div_pow]
  · rw [pow_succ, ← Nat.div_div_eq_div_mul, hdiv]
    rfl
  · rw [hdiv]
    rfl

end Sys2Proof.Machine
end

section
/-!
SUPPORT. Every state has a step, what `exec` and `step` leave unchanged, and the statements about one step (10_state.md R21
to R40, 40_sequencer.md R112 to R117, 60_exceptions.md R167, R172).
-/

namespace Sys2Proof.Machine

/-! Every state has a step. -/

theorem exists_completeStep_eq_next (d : State → State) (s : State) : ∃ t, completeStep d s = .next t := by
  rcases completeStep_cases d s with ⟨-, he⟩ | ⟨-, -, he⟩ | ⟨-, -, he⟩ <;> exact ⟨_, he⟩

theorem exists_retireStep_eq_next (s : State) : ∃ t, retireStep s = .next t := by
  rcases retireStep_cases s with ⟨-, he⟩ | ⟨-, he⟩ <;> exact ⟨_, he⟩

theorem exists_exec_eq_next (i : Instr) (s : State) : ∃ t, exec i s = .next t := by
  rcases hp : s.phase with _ | _ | _
  · exact ⟨_, exec_idle hp⟩
  · rw [exec_xfer hp]
    exact exists_completeStep_eq_next ..
  · rw [exec_resp hp]
    exact exists_retireStep_eq_next s

theorem exists_afterTick_eq_next {o : StepOutcome} (h : ∃ u, o = .next u) : ∃ t, afterTick o = .next t := by
  obtain ⟨u, rfl⟩ := h
  exact ⟨_, rfl⟩

theorem exists_step_eq_next (s : State) : ∃ t, step s = .next t := by
  rcases hp : s.phase with _ | _ | _
  · rcases hi : presented s with _ | i
    · exact ⟨_, step_idle_none hp hi⟩
    · exact ⟨_, step_idle_some hp hi⟩
  · rw [step_xfer hp]
    exact exists_afterTick_eq_next (exists_completeStep_eq_next ..)
  · rw [step_resp hp]
    exact exists_afterTick_eq_next (exists_retireStep_eq_next s)

/-! `step` in XFER, once the bus has answered. -/

theorem step_xfer_failed {s : State} (hp : s.phase = .xfer) (hd : (portsNow s).busDone = true)
    (hf : (portsNow s).busFail = true) : step s = .next (tick (raiseBusFail (portsNow s).busErr s)) := by
  rw [step_xfer hp, completeStep_failed hd hf, afterTick]

theorem step_xfer_succeeded {s : State} (hp : s.phase = .xfer) (hd : (portsNow s).busDone = true)
    (hf : (portsNow s).busFail = false) : step s = .next (tick (deliverLatched s)) := by
  rw [step_xfer hp, completeStep_succeeded hd hf, afterTick]

/-- Without an element it reads, a delivery leaves no byte (log entry 2). -/
theorem deliverLatched_of_missing {s : State}
    (h : s.cmdOp = none ∨ ∃ op, s.cmdOp = some op ∧ opIsRead op = true ∧ s.inLen = none) :
    deliverLatched s = completeUnread s := by
  rcases h with ho | ⟨op, ho, hread, hn⟩
  · exact deliverLatched_none ho
  · rw [deliverLatched_some ho, deliverOf_unread hread hn]

/-- Settles O44, phase by phase. -/
theorem everyStateHasAStep : Obligations.EveryStateHasAStep := by
  intro s
  refine ⟨exists_step_eq_next s, fun i => exists_exec_eq_next i s, fun hp hd hf hmissing => ?_⟩
  rw [step_xfer_succeeded hp hd hf, deliverLatched_of_missing hmissing]
  rfl

/-! `step` is `exec` of a command. -/

/-- In IDLE a step runs the presented command. -/
theorem step_idle_exec {s : State} {i : Instr} (hp : s.phase = .idle) (hi : presented s = some i) :
    step s = afterTick (exec i s) := by
  rw [step_idle_some hp hi, exec_idle hp, afterTick]

/-- In RESP a step is the RETIRE all commands share. -/
theorem step_resp_exec {s : State} (i : Instr) (hp : s.phase = .resp) : step s = afterTick (exec i s) := by
  rw [step_resp hp, exec_resp hp]

/-- A table word that decodes fits the 19 wires and spells its command. -/
theorem decodeTableWord_eq_some {nbits w : Nat} {i : Instr} (h : decodeTableWord nbits w = some i) :
    ∃ cw, wordOfNat w = some cw ∧ decode cw = .cmd i := by
  unfold decodeTableWord at h
  split at h
  · cases h
  · rename_i cw hcw
    split at h
    · rename_i hd
      cases h
      exact ⟨cw, hcw, hd⟩
    · cases h

/-- Settles O13: ACCEPT is the step of every command in IDLE, and `presented` is what the port shows. -/
theorem acceptEffect : Obligations.AcceptEffect := by
  refine ⟨fun i s hp => exec_idle hp, fun s i hp hv hw => ?_, fun s hp hno => ?_⟩
  · exact step_idle_exec hp (presented_eq_some.2 ⟨hv, hw⟩)
  · exact step_idle_none hp (presented_eq_none.2 fun ⟨i, hv, hw⟩ => hno hv i hw)

/-- Settles O45, phase by phase. -/
theorem stepRunsTheDecodedCommand : Obligations.StepRunsTheDecodedCommand := by
  refine ⟨fun s i hp hv hw => step_idle_exec hp (presented_eq_some.2 ⟨hv, hw⟩), fun s i hp ho => step_xfer_exec hp ho,
    fun s i hp => step_resp_exec i hp, fun s nbits w i hw => ?_⟩
  obtain ⟨cw, hcw, hd⟩ := decodeTableWord_eq_some hw
  obtain ⟨hp, hi⟩ := presented_presentWord (s := s) hcw hd
  exact ⟨step_idle_exec hp hi, hp⟩

/-! What a step leaves. -/

/-- All that `deliverLatched` can do. -/
theorem deliverLatched_cases (s : State) :
    (s.cmdOp = none ∧ deliverLatched s = completeUnread s) ∨
    (∃ op, s.cmdOp = some op ∧ deliverLatched s = deliverOf op s) := by
  rcases ho : s.cmdOp with _ | op
  · exact .inl ⟨rfl, deliverLatched_none ho⟩
  · exact .inr ⟨op, rfl, deliverLatched_some ho⟩

/-- A delivery writes `phase` and the response registers, and its outcome is OK, whatever is latched (R114). -/
theorem deliverLatched_frame (s : State) :
    deliverLatched s =
      { s with phase := .resp, rspStatus := some .ok, rspErr := none, inBuf := (deliverLatched s).inBuf } := by
  rcases deliverLatched_cases s with ⟨-, h⟩ | ⟨op, -, h⟩ <;> rw [h]
  · rfl
  · exact deliverOf_frame op s

/-- In RESP a command writes `phase` alone (R116). -/
theorem exec_resp_frame {i : Instr} {s t : State} (hp : s.phase = .resp) (h : exec i s = .next t) :
    t = { s with phase := t.phase } := by
  rw [exec_resp hp] at h
  rcases retireStep_cases s with ⟨-, he⟩ | ⟨-, he⟩ <;> rw [he] at h <;> cases h <;> rfl

/-- A write that ends OK has not touched the inbound buffer (R114, R151). -/
theorem exec_xfer_write_inBuf {i : Instr} {s t : State} (hp : s.phase = .xfer) (hwrite : opIsRead (opOf i) = false)
    (h : exec i s = .next t) (hok : t.rspStatus = some .ok) : t.inBuf = s.inBuf := by
  rw [exec_xfer hp] at h
  rcases completeStep_cases (deliverOf (opOf i)) s with ⟨-, he⟩ | ⟨-, -, he⟩ | ⟨-, -, he⟩ <;> rw [he] at h <;> cases h
  · rfl
  · cases hok
  · rw [deliverOf_write hwrite, ackWrite_inBuf]

/-- Settles O31, phase by phase: ACCEPT, COMPLETE and RETIRE each with its frame. -/
theorem execFrame : Obligations.ExecFrame := by
  intro i s t h
  rcases hp : s.phase with _ | _ | _
  · rw [exec_idle hp] at h
    cases h
    exact ⟨rfl, rfl, fun _ => rfl, fun hbusy => absurd rfl hbusy, nofun, nofun⟩
  · have hbuf : opOf i = .wrreg → t.rspStatus = some .ok → t.inBuf = s.inBuf :=
      fun hop => exec_xfer_write_inBuf hp (by rw [hop]; rfl) h
    rcases exec_xfer_frame hp h with rfl | ⟨status, err, cells, rfl⟩ <;>
      exact ⟨rfl, rfl, nofun, fun _ => ⟨rfl, rfl, rfl, rfl, rfl, rfl, rfl, rfl⟩, fun _ => hbuf, nofun⟩
  · have ht := exec_resp_frame hp h
    rw [ht]
    exact ⟨rfl, rfl, nofun, fun _ => ⟨rfl, rfl, rfl, rfl, rfl, rfl, rfl, rfl⟩, nofun, fun _ => rfl⟩

/-! The reads and `val`. -/

/-- For one bus request, ACCEPT puts the value in its latch and nowhere else (R112). -/
theorem accept_val (op : Op) (addr val val' : Byte) (req : BusRequest) (s : State) :
    accept op addr val' req s = { accept op addr val req s with cmdVal := some val' } := rfl

/-- The frame of a read does not depend on its value (R98). -/
theorem frame_read_val {p : Params} {op : Op} (hread : opIsRead op = true) (addr v v' : Byte) :
    frame p (instrOf op addr v') = frame p (instrOf op addr v) := by
  rw [frame_read (by rwa [opOf_instrOf]), frame_read (by rwa [opOf_instrOf])]
  simp only [opOf_instrOf, addrOf_instrOf]

/-- Past ACCEPT a command does what its `op` says. -/
theorem exec_congr_of_busy {i j : Instr} {s : State} (hop : opOf i = opOf j) (hbusy : s.phase ≠ .idle) :
    exec i s = exec j s := by
  rcases xfer_or_resp_of_ne_idle hbusy with hp | hp
  · rw [exec_xfer hp, exec_xfer hp, hop]
  · rw [exec_resp hp, exec_resp hp]

/-- Settles O9: a read's value is in no frame, and past ACCEPT a command does what its `op` says. -/
theorem readsIgnoreVal : Obligations.ReadsIgnoreVal := by
  intro op addr v v' s hread
  refine ⟨fun hp => ⟨_, exec_idle hp, ?_, ?_⟩, fun hbusy => exec_congr_of_busy (by simp) hbusy⟩
  · rw [accept_cmdVal, valOf_instrOf]
  · rw [exec_idle hp, frame_read_val hread addr v v']
    simp only [opOf_instrOf, addrOf_instrOf, valOf_instrOf]
    rw [accept_val]

/-! The channels after a step. -/

/-- Settles O12: what ACCEPT shows is the frame, which the table of R110 writes out. -/
theorem acceptIssuesTheFrame : Obligations.AcceptIssuesTheFrame := by
  intro s addr val hp
  have haccept (i : Instr) :
      ∃ t, exec i s = .next t ∧ busRequest t = some (frame s.params i) ∧ t.log = s.log ++ [frame s.params i] :=
    ⟨_, exec_idle hp, busRequest_accept i s, rfl⟩
  exact ⟨haccept (.rdreg addr val), haccept (.rdmeas addr val), haccept (.rdcalpt addr val),
    haccept (.rdcalh addr val), haccept (.wrreg addr val)⟩

/-- Settles O43, by the definition of the output signals. -/
theorem handshakesFollowThePhase : Obligations.HandshakesFollowThePhase := by
  intro s
  exact ⟨beq_iff_eq, beq_iff_eq, beq_iff_eq, rfl, rfl, rfl, rfl, rfl, rfl, rfl⟩

/-- Settles O32: a step from XFER to RESP raises `BusFail` or delivers, and every delivery leaves OK and no error. -/
theorem onlyTheCodesOfTheTable : Obligations.OnlyTheCodesOfTheTable := by
  intro s t h hp hresp
  rw [step_xfer hp] at h
  rcases completeStep_cases deliverLatched s with ⟨-, he⟩ | ⟨-, hf, he⟩ | ⟨-, hf, he⟩ <;> rw [he] at h <;> cases h
  · cases hp.symm.trans hresp
  · exact .inr ⟨rfl, rfl, rfl, rfl, hf⟩
  · rw [deliverLatched_frame]
    exact .inl ⟨rfl, rfl, hf⟩

/-- Settles O42: the failed response retires, and the next command's ACCEPT discards the response registers. -/
theorem noErrorLingers : Obligations.NoErrorLingers := by
  intro s q q' rest i hp _ hin hr hv hw
  have hretire := step_resp_taken hp (by rwa [portsNow_cons hin])
  have hports : portsNow (tick (retire s)) = q' := portsNow_cons (rest := rest) (by simp [hin])
  have hpres : presented (tick (retire s)) = some i := presented_eq_some.2 (by rw [hports]; exact ⟨hv, hw⟩)
  exact ⟨_, _, hretire, rfl, rfl, step_idle_some rfl hpres, rfl, busRequest_accept i (tick (retire s)), rfl, rfl⟩

end Sys2Proof.Machine
end

section
/-!
SUPPORT. The invariant under the shared operations and under a step, and the statements about the good states (10_state.md R36,
R41, 30_encoding.md R93, R95).
-/

namespace Sys2Proof.Machine

/-! The invariant, phase by phase. -/

theorem inFlight_of_carries {s : State} {i : Instr} (h : s.Carries i) : inFlight s = some i := by
  obtain ⟨ho, ha, hv, -⟩ := h
  exact inFlight_eq_some.2 ⟨ho, ha, hv⟩

/-- The command in flight is the one a good state in XFER waits for. -/
theorem waiting_of_inv {s : State} {i : Instr} (h : s.Inv) (hp : s.phase = .xfer) (hi : inFlight s = some i) :
    s.Waiting i := by
  obtain ⟨j, hj, hw⟩ := inv_xfer h hp
  cases hi.symm.trans hj
  exact hw

/-- The command in flight is the one a good state in RESP has answered. -/
theorem answered_of_inv {s : State} {i : Instr} (h : s.Inv) (hp : s.phase = .resp) (hi : inFlight s = some i) :
    s.Answered i := by
  obtain ⟨j, hj, ha⟩ := inv_resp h hp
  cases hi.symm.trans hj
  exact ha

theorem phaseInv_of_idle {s : State} (hp : s.phase = .idle) : s.PhaseInv := by
  simp [State.PhaseInv, hp]

theorem phaseInv_of_waiting {s : State} {i : Instr} (hp : s.phase = .xfer) (hw : s.Waiting i) : s.PhaseInv :=
  ⟨fun _ => any_decide.2 ⟨i, inFlight_of_carries hw.1, hw⟩, fun h => absurd (hp.symm.trans h) nofun⟩

theorem phaseInv_of_answered {s : State} {i : Instr} (hp : s.phase = .resp) (ha : s.Answered i) : s.PhaseInv :=
  ⟨fun h => absurd (hp.symm.trans h) nofun, fun _ => any_decide.2 ⟨i, inFlight_of_carries ha.1, ha⟩⟩

/-! What each operation makes of the latches. -/

/-- ACCEPT leaves the command waiting, whatever the registers held (R112). -/
theorem accept_waiting (i : Instr) (s : State) :
    (accept (opOf i) (addrOf i) (valOf i) (frame s.params i) s).Waiting i := by
  refine ⟨⟨rfl, rfl, rfl, ?_, rfl, rfl, ?_, ?_⟩, rfl, rfl, rfl⟩
  · rw [accept_outLen, frame_out_length]
  · rw [accept_inLen, frame_n]
    rfl
  · rw [accept_log, List.getLast?_concat]
    rfl

/-- After a failure the command is answered with `FAIL` and no byte (R115). -/
theorem raiseBusFail_answered {s : State} {i : Instr} {e : Nat} (hc : s.Carries i) (he : e < 2 ^ s.params.errW) :
    (raiseBusFail e s).Answered i :=
  ⟨hc, .inr ⟨rfl, decide_eq_true he, rfl⟩⟩

/-- After a read that succeeded every cell below the inbound length holds a byte and no other does (R114). -/
theorem captureRead_answered {s : State} {i : Instr} (hw : s.Waiting i) :
    (captureRead (inLength s.params (opOf i)) s).Answered i := by
  obtain ⟨hc, hbuf, -⟩ := hw
  have hlen := inboundBytes_length (inLength s.params (opOf i)) (portsNow s)
  refine ⟨hc, .inl ⟨rfl, rfl, ?_, ?_⟩⟩
  · rw [captureRead_inBuf, captureRead_params, hbuf,
      captureCells_take hlen ((inLength_le_maxLen ..).trans_eq (emptyBuffer_length _).symm), cellBytes_map_some]
    rfl
  · rw [captureRead_inBuf, captureRead_params, hbuf, captureCells_drop hlen, emptyBuffer, List.drop_replicate]

/-- WRREG is the one command that is no read (R82). -/
theorem eq_wrreg_of_not_read {op : Op} (hwrite : opIsRead op = false) : op = .wrreg := by
  cases op with
  | wrreg => rfl
  | rdreg | rdmeas | rdcalpt | rdcalh => cases hwrite

/-- A write asks for no inbound byte (R91). -/
theorem inLength_write {p : Params} {op : Op} (hwrite : opIsRead op = false) : inLength p op = 0 := by
  rw [eq_wrreg_of_not_read hwrite]
  rfl

/-- After a write that succeeded no cell holds a byte (R114, R151). -/
theorem ackWrite_answered {s : State} {i : Instr} (hw : s.Waiting i) (hwrite : opIsRead (opOf i) = false) :
    (ackWrite s).Answered i := by
  obtain ⟨hc, hbuf, -⟩ := hw
  refine ⟨hc, .inl ⟨rfl, rfl, ?_, ?_⟩⟩ <;> rw [ackWrite_inBuf, ackWrite_params, hbuf, inLength_write hwrite] <;> rfl

/-- With the command's own latches a delivery is a read's capture or a write's acknowledgment (R114). -/
theorem deliverLatched_of_carries {s : State} {i : Instr} (hc : s.Carries i) :
    (opIsRead (opOf i) = true ∧ deliverLatched s = captureRead (inLength s.params (opOf i)) s) ∨
    (opIsRead (opOf i) = false ∧ deliverLatched s = ackWrite s) := by
  obtain ⟨ho, -, -, -, -, -, hn, -⟩ := hc
  rw [deliverLatched_some ho]
  rcases hread : opIsRead (opOf i)
  · exact .inr ⟨rfl, deliverOf_write hread⟩
  · exact .inl ⟨rfl, deliverOf_read hread hn⟩

/-- A success leaves the waiting command answered, the buffer at its size. -/
theorem deliverLatched_answered {s : State} {i : Instr} (hw : s.Waiting i) : (deliverLatched s).Answered i := by
  rcases deliverLatched_of_carries hw.1 with ⟨-, h⟩ | ⟨hwrite, h⟩ <;> rw [h]
  · exact captureRead_answered hw
  · exact ackWrite_answered hw hwrite

theorem deliverLatched_inBuf_length {s : State} {i : Instr} (hc : s.Carries i) :
    (deliverLatched s).inBuf.length = s.inBuf.length := by
  rcases deliverLatched_of_carries hc with ⟨-, h⟩ | ⟨-, h⟩ <;> rw [h]
  · exact captureCells_length ..
  · rfl

/-! The invariant over a step. -/

/-- The native error in this step is one of `ERR_W` bits; past the end of the inputs it is 0. -/
theorem portsNow_busErr_lt {s : State} {b : Nat} (h : ∀ q ∈ s.inputs, q.busErr < 2 ^ b) :
    (portsNow s).busErr < 2 ^ b := by
  rcases hi : s.inputs with _ | ⟨q, rest⟩
  · rw [portsNow_nil hi]
    exact Nat.two_pow_pos b
  · rw [portsNow_cons hi]
    exact h q (by simp [hi])

theorem tick_inv {s : State} (h : s.Inv) : (tick s).Inv := by
  obtain ⟨hwf, hlen, herr, hphase⟩ := h
  exact ⟨hwf, hlen, fun q hq => herr q (List.mem_of_mem_tail hq), hphase⟩

theorem accept_inv {s : State} (h : s.Inv) (i : Instr) :
    (accept (opOf i) (addrOf i) (valOf i) (frame s.params i) s).Inv := by
  obtain ⟨hwf, -, herr, -⟩ := h
  exact ⟨hwf, emptyBuffer_length s.params, herr, phaseInv_of_waiting rfl (accept_waiting i s)⟩

theorem raiseBusFail_inv {s : State} (h : s.Inv) (hp : s.phase = .xfer) :
    (raiseBusFail (portsNow s).busErr s).Inv := by
  obtain ⟨i, -, hc, -⟩ := inv_xfer h hp
  obtain ⟨hwf, -, herr, -⟩ := h
  exact ⟨hwf, emptyBuffer_length s.params, herr,
    phaseInv_of_answered rfl (raiseBusFail_answered hc (portsNow_busErr_lt herr))⟩

theorem deliverLatched_inv {s : State} (h : s.Inv) (hp : s.phase = .xfer) : (deliverLatched s).Inv := by
  obtain ⟨i, -, hw⟩ := inv_xfer h hp
  obtain ⟨hwf, hlen, herr, -⟩ := h
  have hphase := phaseInv_of_answered (deliverLatched_phase s) (deliverLatched_answered hw)
  have hlen' := (deliverLatched_inBuf_length hw.1).trans hlen
  rw [deliverLatched_frame] at hphase ⊢
  exact ⟨hwf, hlen', herr, hphase⟩

theorem retire_inv {s : State} (h : s.Inv) : (retire s).Inv := by
  obtain ⟨hwf, hlen, herr, -⟩ := h
  exact ⟨hwf, hlen, herr, phaseInv_of_idle rfl⟩

/-- Every step keeps the invariant, phase by phase (R36). -/
theorem step_inv {s t : State} (h : s.Inv) (ht : step s = .next t) : t.Inv := by
  rcases hp : s.phase with _ | _ | _
  · rcases hi : presented s with _ | i
    · cases (step_idle_none hp hi).symm.trans ht
      exact tick_inv h
    · cases (step_idle_some hp hi).symm.trans ht
      exact tick_inv (accept_inv h i)
  · rcases hd : (portsNow s).busDone
    · cases (step_xfer_silent hp hd).symm.trans ht
      exact tick_inv h
    rcases hf : (portsNow s).busFail
    · cases (step_xfer_succeeded hp hd hf).symm.trans ht
      exact tick_inv (deliverLatched_inv h hp)
    · cases (step_xfer_failed hp hd hf).symm.trans ht
      exact tick_inv (raiseBusFail_inv h hp)
  · rcases hr : (portsNow s).rspReady
    · cases (step_resp_held hp hr).symm.trans ht
      exact tick_inv h
    · cases (step_resp_taken hp hr).symm.trans ht
      exact tick_inv (retire_inv h)

/-- Settles O35: every state has a step, and each operation a step can take keeps the invariant. -/
theorem goodStatesStepToGoodStates : Obligations.GoodStatesStepToGoodStates := by
  intro s h
  obtain ⟨t, ht⟩ := exists_step_eq_next s
  exact ⟨t, ht, step_inv h ht⟩

/-- Settles O36: at launch the phase asks for nothing, and the buffer is the empty one. -/
theorem launchIsGood : Obligations.LaunchIsGood := by
  refine ⟨?_, Params.defaults, [], by decide, by simp, rfl⟩
  rintro s ⟨p, env, hwf, herr, rfl⟩
  exact ⟨hwf, emptyBuffer_length p, herr, phaseInv_of_idle rfl⟩

/-! What a good state shows. -/

/-- Settles O34: with the latches of the command in flight the outbound bytes are its frame's. -/
theorem busChannelShowsTheFrame : Obligations.BusChannelShowsTheFrame := by
  intro s i h hp hi
  obtain ⟨⟨-, -, -, hlen, h0, h1, hn, hlast⟩, -⟩ := waiting_of_inv h hp hi
  refine ⟨?_, hlast⟩
  rw [busRequest, hp, outboundBytes_frame hlen h0 h1, hn, ← frame_n]

/-- After a read that ended OK the response is the bytes below the inbound length (R95). -/
theorem response_of_read_ok {s : State} {i : Instr} {bytes : List Byte} (hc : s.Carries i)
    (hok : s.rspStatus = some .ok) (hread : opIsRead (opOf i) = true)
    (hbytes : cellBytes (s.inBuf.take (inLength s.params (opOf i))) = some bytes) :
    response s = some (.okRead bytes) := by
  simp [response, hok, hc.1, hread, hbytes]

/-- After a write that ended OK the response carries no data (R95). -/
theorem response_of_write_ok {s : State} {i : Instr} (hc : s.Carries i) (hok : s.rspStatus = some .ok)
    (hwrite : opIsRead (opOf i) = false) : response s = some .okWrite := by
  simp [response, hok, hc.1, hwrite]

/-- Settles O33: an answered command has ended OK, as a read or as a write, or it has failed. -/
theorem responseShapes : Obligations.ResponseShapes := by
  intro s i h hp hi
  have ha := answered_of_inv h hp hi
  obtain ⟨-, hlen, -⟩ := h
  obtain ⟨hc, ⟨hok, -, hbytes, hrest⟩ | ⟨hfail, herr, hbuf⟩⟩ := ha
  · rcases hread : opIsRead (opOf i)
    · refine ⟨_, response_of_write_ok hc hok hread, eq_wrreg_of_not_read hread, hok, ?_⟩
      rw [inLength_write hread, List.drop_zero] at hrest
      rw [hrest]
      exact fun c => List.eq_of_mem_replicate
    · obtain ⟨bytes, hbytes⟩ := Option.isSome_iff_exists.1 hbytes
      refine ⟨_, response_of_read_ok hc hok hread hbytes, rfl, hok, ?_⟩
      rw [cellBytes_length hbytes, List.length_take, hlen, Nat.min_eq_left (inLength_le_maxLen ..)]
  · obtain ⟨d, hd, -⟩ := (Option.any_eq_true ..).1 herr
    refine ⟨.err d, by simp [response, hfail, hd], hfail, hd, ?_⟩
    rw [hbuf]
    exact fun c => eq_none_of_mem_emptyBuffer

end Sys2Proof.Machine
end

section
/-!
SUPPORT. What every run keeps: the parameters, the count of inputs, and one record per accepted command; and the statements about
them (40_sequencer.md R118, 70_reset_and_hazards.md R208).
-/

namespace Sys2Proof.Machine

/-! One step. -/

/-- A step uses up one entry of the inputs (log entry 3). -/
theorem step_inputs {s t : State} (h : step s = .next t) : t.inputs = s.inputs.tail := by
  rcases step_cases h with ⟨-, -, rfl⟩ | ⟨_, -, -, rfl⟩ | ⟨-, -, rfl⟩ | ⟨-, -, -, rfl⟩ | ⟨_, _, -, -, -, -, -, -, rfl⟩ |
    ⟨_, -, -, -, -, -, rfl⟩ | ⟨-, -, -, -, rfl⟩ | ⟨-, -, rfl⟩ | ⟨-, -, rfl⟩ <;> rfl

/-- What the step from `s` accepts: `acceptedIn` is made of these. -/
def acceptedNow (s : State) : List Instr :=
  if s.phase = .idle then (presented s).toList else []

theorem acceptedNow_idle {s : State} (hp : s.phase = .idle) : acceptedNow s = (presented s).toList := if_pos hp

theorem acceptedNow_presented {s : State} {i : Instr} (hi : presented s = some i) (hp : s.phase = .idle) :
    acceptedNow s = [i] := by
  rw [acceptedNow_idle hp, hi]
  rfl

theorem acceptedNow_busy {s : State} (hbusy : s.phase ≠ .idle) : acceptedNow s = [] := if_neg hbusy

/-- In XFER and RESP no record is added to the log (R113, R116). -/
theorem step_log_busy {s t : State} (hbusy : s.phase ≠ .idle) (h : step s = .next t) : t.log = s.log := by
  rcases step_log h with hsame | ⟨-, hp, -⟩
  · exact hsame
  · exact absurd hp hbusy

/-- A step adds to the log the frame of the command it accepts, and nothing else (R112, R118). -/
theorem step_log_acceptedNow {s t : State} (h : step s = .next t) :
    t.log = s.log ++ (acceptedNow s).map (frame s.params) := by
  by_cases hp : s.phase = .idle
  · rw [acceptedNow_idle hp]
    rcases hi : presented s with _ | i
    · cases (step_idle_none hp hi).symm.trans h
      simp
    · cases (step_idle_some hp hi).symm.trans h
      rfl
  · rw [acceptedNow_busy hp, step_log_busy hp h]
    simp

/-! A run. -/

theorem acceptedIn_succ {k : Nat} {s t : State} (h : step s = .next t) :
    acceptedIn (k + 1) s = acceptedNow s ++ acceptedIn k t := by
  simp only [acceptedIn, h, acceptedNow]

/-- What two runs, one after the other, accept. -/
theorem acceptedIn_add {a : Nat} (b : Nat) {s t : State} (h : Host.Core.run Sys2Proof.core a s = .next t) :
    acceptedIn (a + b) s = acceptedIn a s ++ acceptedIn b t := by
  induction a generalizing s with
  | zero =>
    cases h
    simp [acceptedIn]
  | succ a ih =>
    obtain ⟨u, hu, hrun⟩ := run_succ_inv h
    rw [Nat.add_right_comm, acceptedIn_succ hu, acceptedIn_succ hu, ih hrun, List.append_assoc]

theorem run_params {k : Nat} {s t : State} (h : Host.Core.run Sys2Proof.core k s = .next t) : t.params = s.params :=
  run_keeps (P := fun u => u.params = s.params) (fun _ _ hu hstep => (step_params hstep).trans hu) k s t rfl h

theorem run_inputs {k : Nat} {s t : State} (h : Host.Core.run Sys2Proof.core k s = .next t) :
    t.inputs = s.inputs.drop k := by
  induction k generalizing s with
  | zero =>
    cases h
    rfl
  | succ k ih =>
    obtain ⟨u, hu, hrun⟩ := run_succ_inv h
    rw [ih hrun, step_inputs hu, List.drop_tail]

/-- After any run the log has grown by the frames of the commands accepted in it (R118). -/
theorem run_log {k : Nat} {s t : State} (h : Host.Core.run Sys2Proof.core k s = .next t) :
    t.log = s.log ++ (acceptedIn k s).map (frame s.params) := by
  induction k generalizing s with
  | zero =>
    cases h
    simp [acceptedIn]
  | succ k ih =>
    obtain ⟨u, hu, hrun⟩ := run_succ_inv h
    rw [ih hrun, step_log_acceptedNow hu, step_params hu, acceptedIn_succ hu, List.map_append, List.append_assoc]

/-- A run that adds no record has accepted no command. -/
theorem acceptedIn_eq_nil {k : Nat} {s t : State} (h : Host.Core.run Sys2Proof.core k s = .next t)
    (hlog : t.log = s.log) : acceptedIn k s = [] := by
  simpa [hlog] using run_log h

/-- Settles O38, by induction over the run. -/
theorem parametersNeverChange : Obligations.ParametersNeverChange :=
  fun _ _ _ h => ⟨run_params h, run_inputs h⟩

/-- Settles O19: each step adds the frame of the command it accepts, so a run adds them in order; at launch the log is
empty. -/
theorem oneRecordPerAcceptedCommand : Obligations.OneRecordPerAcceptedCommand := by
  refine ⟨fun k s t h => run_log h, fun p env k t h => ?_⟩
  have hlog : t.log = (acceptedIn k (State.launch p env)).map (frame p) := run_log h
  refine ⟨by rw [hlog, List.length_map], fun j i hj => ?_⟩
  rw [hlog, List.getElem?_map, hj]
  rfl

end Sys2Proof.Machine
end

section
/-!
SUPPORT. A command from its presentation to the taking of its response, with any waits between, and the statements about such runs
(20_memory.md R54, R55, R62, 30_encoding.md R97, 40_sequencer.md R120 to R123, 70_reset_and_hazards.md R203, R207, R208).
-/

namespace Sys2Proof.Machine

/-! Waiting on a known stretch of inputs. -/

section

variable {Q : Ports → Prop} {p : Phase} (hquiet : Q quietPorts)
  (hstep : ∀ u : State, u.phase = p → Q (portsNow u) → step u = .next (tick u))

include hquiet hstep

/-- `run_waits`, with the ports that are waited out written in front of the others. -/
theorem run_waits_append {w rest : List Ports} {s : State} (hp : s.phase = p) (hin : s.inputs = w ++ rest)
    (hw : ∀ q ∈ w, Q q) : Host.Core.run Sys2Proof.core w.length s = .next { s with inputs := rest } := by
  rw [run_waits hquiet hstep w.length s hp (by rwa [hin, List.take_left]), hin, List.drop_left]

/-- A run that waits and then takes one step. -/
theorem run_waits_step {w rest : List Ports} {s t : State} (hp : s.phase = p) (hin : s.inputs = w ++ rest)
    (hw : ∀ q ∈ w, Q q) (ht : step { s with inputs := rest } = .next t) :
    Host.Core.run Sys2Proof.core (w.length + 1) s = .next t := by
  rw [run_add (run_waits_append hquiet hstep hp hin hw)]
  exact run_succ ht

end

/-- The ports show no command: none is presented, or a word that spells none (R97, R117). -/
def NoCommand (q : Ports) : Prop :=
  q.cmdValid = false ∨ ∀ i, decode q.cmdWord ≠ .cmd i

theorem noCommand_quietPorts : NoCommand quietPorts := .inl rfl

theorem noCommand_of_reserved {q : Ports} {op : BitVec 3} (h : decode q.cmdWord = .reservedOp op) : NoCommand q :=
  .inr fun i hi => by cases h.symm.trans hi

theorem step_idle_noCommand {s : State} (hp : s.phase = .idle) (h : NoCommand (portsNow s)) :
    step s = .next (tick s) := by
  refine step_idle_none hp (presented_eq_none.2 ?_)
  rintro ⟨i, hv, hw⟩
  rcases h with hno | hno
  · cases hv.symm.trans hno
  · exact hno i hw

/-- Settles O22: the decoder refuses the word by its `op`, and ports that show no command are waited out in IDLE. -/
theorem reservedOpIsRefused : Obligations.ReservedOpIsRefused := by
  intro k s q rest hp hop hin
  have hd : decode q.cmdWord = .reservedOp (fieldsOf q.cmdWord).op := decodeFields_reserved hop
  refine ⟨hd, ?_⟩
  have hw : ∀ r ∈ List.replicate k q, NoCommand r := fun r hr => by
    rw [List.eq_of_mem_replicate hr]
    exact noCommand_of_reserved hd
  simpa using run_waits_append noCommand_quietPorts (fun _ => step_idle_noCommand) hp hin hw

/-! The three steps of a command, each after its waits. -/

/-- ACCEPT after any waits in IDLE (R112). -/
theorem run_accept {s : State} {i : Instr} {w rest : List Ports} {q : Ports} (hp : s.phase = .idle)
    (hin : s.inputs = w ++ q :: rest) (hw : ∀ r ∈ w, NoCommand r) (hv : q.cmdValid = true)
    (hd : decode q.cmdWord = .cmd i) :
    Host.Core.run Sys2Proof.core (w.length + 1) s =
      .next { accept (opOf i) (addrOf i) (valOf i) (frame s.params i) s with inputs := rest } :=
  run_waits_step noCommand_quietPorts (fun _ => step_idle_noCommand) hp hin hw
    (step_idle_some hp (presented_eq_some.2 ⟨hv, hd⟩))

@[simp] theorem response_tick (s : State) : response (tick s) = response s := rfl

/-- Whatever the bus answers, the waiting command ends with that answer's response (R114, R115). -/
theorem step_answered {s : State} {i : Instr} {a : BusAnswer (inLength s.params (opOf i))} (hp : s.phase = .xfer)
    (hw : s.Waiting i) (ha : answerOn (inLength s.params (opOf i)) (portsNow s) = some a) :
    ∃ t, step s = .next t ∧ t.phase = .resp ∧ response t = some (answerResponse i a) ∧ t.log = s.log := by
  obtain ⟨hc, hbuf, -⟩ := hw
  cases a with
  | fail e =>
    obtain ⟨hd, hf, rfl⟩ := answerOn_eq_fail.1 ha
    exact ⟨_, step_xfer_failed hp hd hf, rfl, rfl, rfl⟩
  | ok bytes hlen =>
    obtain ⟨hd, hf, rfl⟩ := answerOn_eq_ok.1 ha
    refine ⟨_, step_xfer_succeeded hp hd hf, deliverLatched_phase s, ?_, by rw [deliverLatched_frame]; rfl⟩
    rcases deliverLatched_of_carries hc with ⟨hread, h⟩ | ⟨hwrite, h⟩ <;> rw [response_tick, h]
    · have hroom : inLength s.params (opOf i) ≤ s.inBuf.length := by
        rw [hbuf, emptyBuffer_length]
        exact inLength_le_maxLen ..
      rw [response_captureRead hc.1 hread hroom, answerResponse, if_pos hread]
    · rw [response_ackWrite hc.1 hwrite, answerResponse, if_neg (by simp [hwrite])]

/-- COMPLETE after any silence of the bus (R113 to R115). -/
theorem run_answered {s : State} {i : Instr} {a : BusAnswer (inLength s.params (opOf i))} {w rest : List Ports}
    {q : Ports} (hp : s.phase = .xfer) (hwait : s.Waiting i) (hin : s.inputs = w ++ q :: rest)
    (hw : ∀ r ∈ w, r.busDone = false) (ha : answerOn (inLength s.params (opOf i)) q = some a) :
    ∃ t : State, Host.Core.run Sys2Proof.core (w.length + 1) s = .next t ∧ t.phase = .resp ∧
      response t = some (answerResponse i a) ∧ t.log = s.log := by
  obtain ⟨t, ht, hphase, hresp, hlog⟩ := step_answered (s := { s with inputs := q :: rest }) hp hwait ha
  exact ⟨t, run_waits_step (Q := (·.busDone = false)) rfl (fun _ => step_xfer_silent) hp hin hw ht, hphase, hresp, hlog⟩

/-- RETIRE after any waits of the issuer (R116). -/
theorem run_taken {s : State} {w rest : List Ports} {q : Ports} (hp : s.phase = .resp)
    (hin : s.inputs = w ++ q :: rest) (hw : ∀ r ∈ w, r.rspReady = false) (hr : q.rspReady = true) :
    Host.Core.run Sys2Proof.core (w.length + 1) s = .next { s with phase := .idle, inputs := rest } :=
  run_waits_step (Q := (·.rspReady = false)) rfl (fun _ => step_resp_held) hp hin hw (step_resp_taken hp hr)

/-- Settles O24: ACCEPT leaves the command waiting, COMPLETE gives the response of the one-step form, RETIRE keeps it. -/
theorem threeStepsAgreeWithOneStep : Obligations.ThreeStepsAgreeWithOneStep := by
  intro s i a w0 w1 w2 rest p0 p1 p2 hp hw0 hv hd hw1 ha hw2 hr hin
  have haccept := run_accept hp hin hw0 hv hd
  obtain ⟨u, hanswer, hresp, hresponse, hlog⟩ := run_answered (i := i)
    (s := { accept (opOf i) (addrOf i) (valOf i) (frame s.params i) s with inputs := w1 ++ p1 :: (w2 ++ p2 :: rest) })
    rfl (accept_waiting i s) rfl hw1 ha
  have hinputs : u.inputs = w2 ++ p2 :: rest := by simpa using run_inputs hanswer
  have htaken := run_taken hresp hinputs hw2 hr
  refine ⟨{ u with phase := .idle, inputs := rest }, ?_, rfl, rfl, (run_params hanswer :), hlog, hresponse⟩
  rw [show w0.length + w1.length + w2.length + 3 = (w0.length + 1) + ((w1.length + 1) + (w2.length + 1)) by omega,
    run_add haccept, run_add hanswer, htaken]

/-! The answers. -/

/-- Every answer is the one some levels of the ports give (R55). -/
theorem answerOn_answerPorts {n : Nat} (a : BusAnswer n) : answerOn n (answerPorts a) = some a := by
  cases a with
  | ok bytes h => exact answerOn_eq_ok.2 ⟨rfl, rfl, (inboundBytes_of_length (p := answerPorts (.ok bytes h)) h).symm⟩
  | fail e => exact answerOn_eq_fail.2 ⟨rfl, rfl, rfl⟩

/-- Settles O46: `answerOn` by its cases, its right inverse `answerPorts`, and COMPLETE of the waiting command. -/
theorem everyBusAnswerIsDelivered : Obligations.EveryBusAnswerIsDelivered := by
  refine ⟨fun n q => ⟨fun hd => by simp [answerOn, hd], fun hd hf => answerOn_eq_fail.2 ⟨hd, hf, rfl⟩, fun hd hf => ?_⟩,
    fun n a => answerOn_answerPorts a, fun s i a h hp hi ha => step_answered hp (waiting_of_inv h hp hi) ha⟩
  exact ⟨_, inboundBytes_length n q, answerOn_eq_ok.2 ⟨hd, hf, rfl⟩, fun k hk hb => inboundBytes_getElem? hk hb⟩

/-! Commands one after the other. -/

/-- Settles O25, by induction over the commands: each is one round of three steps without a wait. -/
theorem answeredCommandsEndOneByOne : Obligations.AnsweredCommandsEndOneByOne := by
  intro p cmds s rest hp hparams hin
  induction cmds generalizing s with
  | nil => exact ⟨s, rfl, ⟨hp, by simp⟩, hin, hparams⟩
  | cons c cs ih =>
    subst hparams
    obtain ⟨t, hrun, htp, htin, htparams, htlog, -⟩ := threeStepsAgreeWithOneStep s (assembleLine c.line) c.answer
      [] [] [] (programInputs cs ++ rest) (presentPorts (canonicalWord c.line)) (answerPorts c.answer) takePorts hp
      nofun rfl (decodeInvertsEncode _).2 nofun (answerOn_answerPorts _) nofun rfl hin
    obtain ⟨u, hrest, ⟨hup, hulog⟩, huin, huparams⟩ := ih t htp htparams htin
    refine ⟨u, ?_, ⟨hup, ?_⟩, huin, huparams⟩
    · rw [List.length_cons, Nat.mul_succ, Nat.add_comm, ← hrest]
      exact run_add hrun
    · rw [hulog, htlog, huparams]
      simp [execOneStep]

/-- Settles O30: two rounds of one and the same RDREG, each with the response to its own answer. -/
theorem repeatedReadIsATransactionOfItsOwn : Obligations.RepeatedReadIsATransactionOfItsOwn := by
  intro s addr val p0 p1 p2 r0 r1 r2 b c rest hp hin hpv hrv hpd hrd hpa hra hpr hrr
  obtain ⟨t, hrun, htp, htin, htparams, htlog, htresp⟩ := threeStepsAgreeWithOneStep s (.rdreg addr val) (.ok [b] rfl)
    [] [] [] (r0 :: r1 :: r2 :: rest) p0 p1 p2 hp nofun hpv hpd nofun hpa nofun hpr hin
  obtain ⟨u, hrun', -, -, -, hulog, huresp⟩ := threeStepsAgreeWithOneStep t (.rdreg addr val) (.ok [c] rfl)
    [] [] [] rest r0 r1 r2 htp nofun hrv hrd nofun hra nofun hrr htin
  refine ⟨t, u, hrun, htresp, (run_add (b := 3) hrun).trans hrun', huresp, ?_⟩
  rw [hulog, htlog]
  exact List.append_assoc ..

/-! What comes in the end. -/

/-- The first of the ports on which a signal is high. -/
theorem exists_first {f : Ports → Bool} {l : List Ports} (h : ∃ q ∈ l, f q = true) :
    ∃ w q rest, l = w ++ q :: rest ∧ (∀ r ∈ w, f r = false) ∧ f q = true := by
  obtain ⟨q, hq⟩ := Option.isSome_iff_exists.1 (List.find?_isSome.2 h)
  obtain ⟨hf, w, rest, hl, hw⟩ := List.find?_eq_some_iff_append.1 hq
  exact ⟨w, q, rest, hl, fun r hr => by simpa using hw r hr, hf⟩

/-- An answer among the inputs to come is waited for, and ends the transfer (R203). -/
theorem exists_run_to_resp {s : State} (hp : s.phase = .xfer) (h : AnswerComes s.inputs) :
    ∃ (k : Nat) (t : State), k ≤ s.inputs.length ∧ Host.Core.run Sys2Proof.core k s = .next t ∧ t.phase = .resp ∧
      t.log = s.log := by
  obtain ⟨w, q, rest, hin, hw, hd⟩ := exists_first h
  obtain ⟨t, ht⟩ := exists_step_eq_next { s with inputs := q :: rest }
  have hrun := run_waits_step (Q := (·.busDone = false)) rfl (fun _ => step_xfer_silent) hp hin hw ht
  exact ⟨w.length + 1, t, by simp [hin], hrun, step_xfer_answered (s := { s with inputs := q :: rest }) hp hd ht,
    step_log_busy (s := { s with inputs := q :: rest }) (by simp [hp]) ht⟩

/-- A taking among the inputs to come is waited for, and retires the command (R196). -/
theorem exists_run_to_idle {s : State} (hp : s.phase = .resp) (h : TakingComes s.inputs) :
    ∃ (k : Nat) (t : State), k ≤ s.inputs.length ∧ Host.Core.run Sys2Proof.core k s = .next t ∧ t.phase = .idle ∧
      t.log = s.log ∧ response t = response s := by
  obtain ⟨w, q, rest, hin, hw, hr⟩ := exists_first h
  exact ⟨w.length + 1, _, by simp [hin], run_taken hp hin hw hr, rfl, rfl, rfl⟩

/-- Settles O39: the first answer, or taking, to come is waited for. -/
theorem answeredAndTakenCommandsFinish : Obligations.AnsweredAndTakenCommandsFinish :=
  ⟨fun _ _ => exists_run_to_resp, fun _ _ => exists_run_to_idle⟩

/-! The premises of R208 along a run. -/

section

variable {s t : State} {k : Nat} (hrun : Host.Core.run Sys2Proof.core k s = .next t)

include hrun

theorem busAnswers_of_run (h : BusAnswers s) : BusAnswers t := fun j u hu =>
  h (k + j) u ((run_add hrun).trans hu)

theorem issuerTakes_of_run (h : IssuerTakes s) : IssuerTakes t := fun j u hu =>
  h (k + j) u ((run_add hrun).trans hu)

/-- After its first commands have been accepted, the issuer runs the rest of the program. -/
theorem issues_of_run {rest : List Instr} (h : Issues (acceptedIn k s ++ rest) s) : Issues rest t := by
  intro j u hu hp
  obtain ⟨hnext, hmore⟩ := h (k + j) u ((run_add hrun).trans hu) hp
  rw [acceptedIn_add j hrun, List.length_append] at hnext hmore
  refine ⟨fun hv => ?_, fun hlt => hmore (by simpa using hlt)⟩
  obtain ⟨i, hi, hd⟩ := hnext hv
  exact ⟨i, by simpa [List.getElem?_append_right] using hi, hd⟩

end

/-- While commands remain, the next one is presented in the end, and then accepted (R100, R112). -/
theorem exists_run_to_accept {s : State} {i : Instr} {prog : List Instr} (hp : s.phase = .idle)
    (h : Issues (i :: prog) s) :
    ∃ (k : Nat) (t : State), Host.Core.run Sys2Proof.core k s = .next t ∧ t.phase = .xfer ∧ acceptedIn k s = [i] := by
  obtain ⟨w, q, rest, hin, hw, hv⟩ := exists_first ((h 0 s rfl hp).2 (by simp [acceptedIn]))
  have hwait := run_waits_append (Q := (·.cmdValid = false)) rfl (fun _ => step_idle_silent) hp hin hw
  have hnone : acceptedIn w.length s = [] := acceptedIn_eq_nil hwait rfl
  obtain ⟨j, hj, hd⟩ := (h w.length _ hwait hp).1 hv
  obtain rfl : i = j := by simpa [hnone] using hj
  have hpres : presented { s with inputs := q :: rest } = some i := presented_eq_some.2 ⟨hv, hd⟩
  have hstep := step_idle_some (s := { s with inputs := q :: rest }) hp hpres
  refine ⟨w.length + 1, _, (run_add hwait).trans (run_succ hstep), rfl, ?_⟩
  rw [acceptedIn_add 1 hwait, hnone, acceptedIn_succ hstep, acceptedNow_presented hpres hp]
  rfl

/-- The next command of the program is accepted, answered and taken in the end. -/
theorem exists_run_of_command {s : State} {i : Instr} {prog : List Instr} (hp : s.phase = .idle)
    (hissue : Issues (i :: prog) s) (hbus : BusAnswers s) (htake : IssuerTakes s) :
    ∃ (k : Nat) (t : State), Host.Core.run Sys2Proof.core k s = .next t ∧ t.phase = .idle ∧ acceptedIn k s = [i] := by
  obtain ⟨a, u, hu, hup, hacc⟩ := exists_run_to_accept hp hissue
  obtain ⟨b, v, -, hv, hvp, hvlog⟩ := exists_run_to_resp hup (hbus a u hu hup)
  obtain ⟨c, t, -, ht, htp, htlog, -⟩ := exists_run_to_idle hvp (issuerTakes_of_run hu htake b v hv hvp)
  refine ⟨a + (b + c), t, ?_, htp, ?_⟩
  · rw [run_add hu, run_add hv, ht]
  · rw [acceptedIn_add _ hu, acceptedIn_add _ hv, acceptedIn_eq_nil hv hvlog, acceptedIn_eq_nil ht htlog, hacc]
    rfl

/-- All commands of the program are accepted and retired in the end, by induction over the program. -/
theorem exists_run_of_program {s : State} {prog : List Instr} (hp : s.phase = .idle) (hissue : Issues prog s)
    (hbus : BusAnswers s) (htake : IssuerTakes s) :
    ∃ (k : Nat) (t : State), Host.Core.run Sys2Proof.core k s = .next t ∧ t.phase = .idle ∧ acceptedIn k s = prog := by
  induction prog generalizing s with
  | nil => exact ⟨0, s, rfl, hp, rfl⟩
  | cons i prog ih =>
    obtain ⟨a, u, hu, hup, hacc⟩ := exists_run_of_command hp hissue hbus htake
    have hrest : Issues prog u := issues_of_run hu (by rwa [hacc])
    obtain ⟨b, t, ht, htp, hacc'⟩ := ih hup hrest (busAnswers_of_run hu hbus) (issuerTakes_of_run hu htake)
    exact ⟨a + b, t, (run_add hu).trans ht, htp, by rw [acceptedIn_add b hu, hacc, hacc']; rfl⟩

/-- Settles O47: the program's commands are accepted one by one, and the log grows by their frames. -/
theorem programsFinish : Obligations.ProgramsFinish := by
  intro prog s _ hp hissue hbus htake
  obtain ⟨k, t, hrun, htp, hacc⟩ := exists_run_of_program hp hissue hbus htake
  exact ⟨k, t, hrun, hacc, htp, by rw [run_log hrun, hacc, run_params hrun]⟩

end Sys2Proof.Machine
end

section
/-!
SUPPORT. Elements that the steps in flight neither read nor write, and the statements that of the latches only `cmd_op` is
read after ACCEPT, and that nothing carries over from one command to the next (10_state.md R25, R36, R40, 40_sequencer.md R122).
-/

namespace Sys2Proof.Machine

/-! Changes that the steps in flight do not notice. -/

/-- `f` changes elements that waiting, failing and RETIRE neither read nor write. -/
structure Unnoticed (f : State → State) : Prop where
  phase_eq (s : State) : (f s).phase = s.phase
  inputs_eq (s : State) : (f s).inputs = s.inputs
  tick_comm (s : State) : tick (f s) = f (tick s)
  raiseBusFail_comm (e : Nat) (s : State) : raiseBusFail e (f s) = f (raiseBusFail e s)
  retire_comm (s : State) : retire (f s) = f (retire s)

/-- `f` changes elements that a delivery does not read or write either. -/
structure Undelivered (f : State → State) : Prop extends Unnoticed f where
  cmdOp_eq (s : State) : (f s).cmdOp = s.cmdOp
  inLen_eq (s : State) : (f s).inLen = s.inLen
  captureRead_comm (n : Nat) (s : State) : captureRead n (f s) = f (captureRead n s)
  ackWrite_comm (s : State) : ackWrite (f s) = f (ackWrite s)
  completeUnread_comm (s : State) : completeUnread (f s) = f (completeUnread s)

theorem unnoticed_cmdOp (op : Option Op) : Unnoticed fun s => { s with cmdOp := op } :=
  ⟨fun _ => rfl, fun _ => rfl, fun _ => rfl, fun _ _ => rfl, fun _ => rfl⟩

theorem undelivered_operands (addr val : Option Byte) : Undelivered fun s => { s with cmdAddr := addr, cmdVal := val } :=
  ⟨⟨fun _ => rfl, fun _ => rfl, fun _ => rfl, fun _ _ => rfl, fun _ => rfl⟩, fun _ => rfl, fun _ => rfl,
    fun _ _ => rfl, fun _ => rfl, fun _ => rfl⟩

theorem undelivered_log (log : List BusRequest) : Undelivered fun s => { s with log := log } :=
  ⟨⟨fun _ => rfl, fun _ => rfl, fun _ => rfl, fun _ _ => rfl, fun _ => rfl⟩, fun _ => rfl, fun _ => rfl,
    fun _ _ => rfl, fun _ => rfl, fun _ => rfl⟩

section

variable {f : State → State} {s t : State}

theorem Undelivered.deliverLatched_comm (hf : Undelivered f) (s : State) :
    deliverLatched (f s) = f (deliverLatched s) := by
  rcases deliverLatched_cases s with ⟨ho, h⟩ | ⟨op, ho, h⟩
  · rw [h, deliverLatched_none ((hf.cmdOp_eq s).trans ho), hf.completeUnread_comm]
  rw [h, deliverLatched_some ((hf.cmdOp_eq s).trans ho)]
  rcases deliverOf_cases op s with ⟨n, hread, hn, h'⟩ | ⟨hread, hn, h'⟩ | ⟨hwrite, h'⟩
  · rw [h', deliverOf_read hread ((hf.inLen_eq s).trans hn), hf.captureRead_comm]
  · rw [h', deliverOf_unread hread ((hf.inLen_eq s).trans hn), hf.completeUnread_comm]
  · rw [h', deliverOf_write hwrite, hf.ackWrite_comm]

/-- In RESP a step does not notice the change. -/
theorem Unnoticed.step_resp (hf : Unnoticed f) (hp : s.phase = .resp) (h : step s = .next t) :
    step (f s) = .next (f t) := by
  have hp' : (f s).phase = .resp := (hf.phase_eq s).trans hp
  have hports : portsNow (f s) = portsNow s := portsNow_congr (hf.inputs_eq s)
  rcases hr : (portsNow s).rspReady
  · cases (step_resp_held hp hr).symm.trans h
    rw [step_resp_held hp' (by rw [hports, hr]), hf.tick_comm]
  · cases (step_resp_taken hp hr).symm.trans h
    rw [step_resp_taken hp' (by rw [hports, hr]), hf.retire_comm, hf.tick_comm]

/-- In XFER a step does not notice the change, if the delivery of a success does not. -/
theorem Unnoticed.step_xfer (hf : Unnoticed f) (hp : s.phase = .xfer)
    (hdeliver : (portsNow s).busDone = true → (portsNow s).busFail = false →
      deliverLatched (f s) = f (deliverLatched s)) (h : step s = .next t) :
    step (f s) = .next (f t) := by
  have hp' : (f s).phase = .xfer := (hf.phase_eq s).trans hp
  have hports : portsNow (f s) = portsNow s := portsNow_congr (hf.inputs_eq s)
  rcases hd : (portsNow s).busDone
  · cases (step_xfer_silent hp hd).symm.trans h
    rw [step_xfer_silent hp' (by rw [hports, hd]), hf.tick_comm]
  rcases hb : (portsNow s).busFail
  · cases (step_xfer_succeeded hp hd hb).symm.trans h
    rw [step_xfer_succeeded hp' (by rw [hports, hd]) (by rw [hports, hb]), hdeliver hd hb, hf.tick_comm]
  · cases (step_xfer_failed hp hd hb).symm.trans h
    rw [step_xfer_failed hp' (by rw [hports, hd]) (by rw [hports, hb]), hports, hf.raiseBusFail_comm, hf.tick_comm]

/-- In XFER and RESP a step does not notice a change that no delivery notices. -/
theorem Undelivered.step_busy (hf : Undelivered f) (hbusy : s.phase ≠ .idle) (h : step s = .next t) :
    step (f s) = .next (f t) := by
  rcases xfer_or_resp_of_ne_idle hbusy with hp | hp
  · exact hf.step_xfer hp (fun _ _ => hf.deliverLatched_comm s) h
  · exact hf.step_resp hp h

end

/-- Settles O48: no step in flight notices the operand latches, and only the delivery of a success notices `cmd_op`. -/
theorem latchesAreNotReadAgain : Obligations.LatchesAreNotReadAgain := by
  refine ⟨fun s addr val hbusy => ?_, fun s op hcase => ?_⟩ <;> obtain ⟨t, ht⟩ := exists_step_eq_next s
  · exact ⟨t, ht, (undelivered_operands addr val).step_busy hbusy ht⟩
  · refine ⟨t, ht, ?_⟩
    rcases hcase with ⟨hp, hno⟩ | hp
    · exact (unnoticed_cmdOp op).step_xfer hp (fun hd hb => by simp [hd, hb] at hno) ht
    · exact (unnoticed_cmdOp op).step_resp hp ht

/-! Two framers with different pasts. -/

/-- The two framers have the same parameters, inputs and phase; with a command in flight they differ in the log at most. -/
def State.Alike (s s' : State) : Prop :=
  s'.params = s.params ∧ s'.inputs = s.inputs ∧ s'.phase = s.phase ∧
    (s.phase ≠ .idle → s' = { s with log := s'.log })

theorem presented_congr {s s' : State} (h : s'.inputs = s.inputs) : presented s' = presented s := by
  simp only [presented, portsNow_congr h]

/-- ACCEPT writes every element but the log's past (R112), so it leaves two idle framers alike. -/
theorem accept_alike {s s' : State} (hparams : s'.params = s.params) (hin : s'.inputs = s.inputs) (i : Instr) :
    accept (opOf i) (addrOf i) (valOf i) (frame s'.params i) s' =
      { accept (opOf i) (addrOf i) (valOf i) (frame s.params i) s with log := s'.log ++ [frame s.params i] } := by
  simp only [accept, hparams, hin]

/-- Alike framers take alike steps and add the same records (R122). -/
theorem step_alike {s s' t : State} (h : s.Alike s') (ht : step s = .next t) :
    ∃ t' added, step s' = .next t' ∧ t.Alike t' ∧ t.log = s.log ++ added ∧ t'.log = s'.log ++ added := by
  obtain ⟨hparams, hin, hphase, hregs⟩ := h
  by_cases hp : s.phase = .idle
  · have hp' : s'.phase = .idle := hphase.trans hp
    have hpres : presented s' = presented s := presented_congr hin
    rcases hi : presented s with _ | i
    · cases (step_idle_none hp hi).symm.trans ht
      refine ⟨_, [], step_idle_none hp' (hpres.trans hi), ⟨hparams, congrArg List.tail hin, hphase, ?_⟩, by simp, by simp⟩
      exact fun hbusy => absurd hp hbusy
    · cases (step_idle_some hp hi).symm.trans ht
      refine ⟨_, [frame s.params i], step_idle_some hp' (hpres.trans hi), ?_, rfl, ?_⟩ <;> rw [accept_alike hparams hin i]
      · exact ⟨rfl, rfl, rfl, fun _ => rfl⟩
      · rfl
  · refine ⟨{ t with log := s'.log }, [], ?_, ⟨rfl, rfl, rfl, fun _ => rfl⟩, by simp [step_log_busy hp ht], by simp⟩
    rw [hregs hp]
    exact (undelivered_log s'.log).step_busy hp ht

/-- Alike framers run alike, by induction over the run (R122). -/
theorem run_alike {k : Nat} {s s' t : State} (h : s.Alike s') (hrun : Host.Core.run Sys2Proof.core k s = .next t) :
    ∃ t' added, Host.Core.run Sys2Proof.core k s' = .next t' ∧ t.Alike t' ∧ t.log = s.log ++ added ∧
      t'.log = s'.log ++ added := by
  induction k generalizing s s' with
  | zero =>
    cases hrun
    exact ⟨s', [], rfl, h, by simp, by simp⟩
  | succ k ih =>
    obtain ⟨u, hu, hrest⟩ := run_succ_inv hrun
    obtain ⟨u', first, hu', halike, hlog, hlog'⟩ := step_alike h hu
    obtain ⟨t', later, ht', halike', htlog, htlog'⟩ := ih halike hrest
    refine ⟨t', first ++ later, (run_succ hu').trans ht', halike', ?_, ?_⟩
    · rw [htlog, hlog, List.append_assoc]
    · rw [htlog', hlog', List.append_assoc]

/-- Settles O23: idle framers with the same parameters and inputs are alike, so they run alike, and no output shows the
log. -/
theorem pastCommandsLeaveNoTrace : Obligations.PastCommandsLeaveNoTrace := by
  intro k s s' t hp hp' hparams hin hrun
  have halike : s.Alike s' := ⟨hparams, hin, hp'.trans hp.symm, fun hbusy => absurd hp hbusy⟩
  obtain ⟨t', added, hrun', ⟨-, htin, htp, hregs⟩, hlog, hlog'⟩ := run_alike halike hrun
  refine ⟨t', added, hrun', htp, htin, hlog, hlog', fun hbusy => ?_⟩
  rw [hregs hbusy]
  exact ⟨rfl, rfl, rfl⟩

end Sys2Proof.Machine
end
